-- ==== Sys2Proof/Word.lean ====
section
/-!
DEFINITION. The one word type of the block: a byte (R12: "A byte is an 8-bit unsigned value"). Counts, cursors and
lengths are natural numbers; no value of the core is ever sign-extended.
-/

namespace Sys2Proof

/-- A byte, an 8-bit unsigned value (R12). -/
abbrev Byte := BitVec 8

end Sys2Proof
end

