-- ==== Sys2Proof/Config.lean ====
section
/-!
DEFINITION. What is fixed for a session (the parameters of 00_scope.md section 3), what the agents outside the engine
choose (start inputs, the effects of a work step, whose turn it is), and the model's one free value.
No number of the hardware is fixed here: `Params` is an argument every operation takes through the state (log entry 1).
-/

namespace Sys2Proof

/-- What PUSH does when the ring is full (00_scope.md section 3, D5). -/
inductive OverflowPolicy where
  | overwriteOldest
  | dropNewest
deriving DecidableEq, Repr, Inhabited

/-- A command descriptor (R80). Its third field, `workStep`, is the external command unit: an oracle (R86), whose
choices stand in the turn that performs the work step, so no function is stored here (log entry 6). -/
structure Descriptor where
  /-- The key the descriptor is registered under. -/
  opcode : Byte
  /-- The size of the command's first sub-frame, loaded at selection (R80, R99). -/
  extraFrameBytes : Nat
deriving DecidableEq, Repr, Inhabited

/-- The parameters of 00_scope.md section 3. `CHECKSUM_SIZE` and `OVF_BITS` are fixed by the spec and are no fields. -/
structure Params where
  /-- `C`, the ring capacity in bytes (R9). -/
  capacity : Nat
  /-- `S`, the staging size in bytes (R9). -/
  stagingSize : Nat
  /-- `INIT_BYTE` (R10). -/
  initByte : Byte
  /-- `QUIT_BYTE` (R10). -/
  quitByte : Byte
  /-- `ACK_BYTE` (R10). -/
  ackByte : Byte
  /-- `NACK_BYTE` (R10). -/
  nackByte : Byte
  /-- `REGISTRY` (R79), the finite partial function that `Params.lookup` reads from this list. -/
  registry : List Descriptor
  /-- `OVERFLOW_POLICY` (D5). -/
  overflowPolicy : OverflowPolicy
  /-- `LOG_ENABLED` (D33). -/
  logEnabled : Bool
deriving DecidableEq, Repr, Inhabited

/-- The reference configuration REF (D34): test values, "not a claim about the hardware".
DESIGN CHOICE, unsafe: `State.reset` carries it; statements quantify over every `Params` (log entry 1). -/
def Params.ref : Params where
  capacity := 8
  stagingSize := 8
  initByte := 0x7F
  quitByte := 0xA5
  ackByte := 0x79
  nackByte := 0x1F
  registry := [⟨0x00, 0⟩, ⟨0x11, 4⟩, ⟨0x43, 1⟩]
  overflowPolicy := .overwriteOldest
  logEnabled := false

/-- The capability presence vector `CAPS` (R118). -/
structure Caps where
  tx : Bool
  irqGate : Bool
  wdg : Bool
  flash : Bool
  timer : Bool
  log : Bool
deriving DecidableEq, Repr, Inhabited

/-- The start inputs (R126), held for the session. `CHIP_ID` is opaque (log entry 7). -/
structure StartInputs where
  caps : Caps
  timeout : Nat
  chipId : Nat
deriving DecidableEq, Repr, Inhabited

/-- The end causes (R106). -/
inductive EndCause where
  | configCaps
  | configBound
  | quit
  | timeout
  | checksumFail
  | unsupported
deriving DecidableEq, Repr, Inhabited

/-- The result of a work step (R55, R82). -/
inductive WsResult where
  | done
  | cont
deriving DecidableEq, Repr, Inhabited

/-- A log record: the engine's own at a checksum failure (R97), or any record of a work step. Its content is opaque
(R121, U11), so the bytes are whatever the command chose (log entry 17). -/
inductive LogRecord where
  | checksumFail
  | ofCommand (content : List Byte)
deriving DecidableEq, Repr, Inhabited

/-- The opaque flash capabilities (R5, R118). -/
inductive FlashCall where
  | write
  | read
  | erase
deriving DecidableEq, Repr, Inhabited

/-- What a work step must not do (R82). -/
inductive Forbidden where
  | touchRing
  | touchSession
  | touchInterruptGate
  | touchAlarm
  | callEngine
  | endSession
deriving DecidableEq, Repr, Inhabited

/-- One effect of a work step (R82): those its contract allows, and a breach of the contract (R86). -/
inductive Effect where
  | sendByte (b : Byte)
  | feedWatchdog
  | flash (c : FlashCall)
  | log (m : LogRecord)
  | request (n : Nat)
  | setPriv (v : List Byte)
  | breach (f : Forbidden)
deriving DecidableEq, Repr, Inhabited

/-- Whose turn it is, and what that agent outside the engine chooses to do in it (R11, R123). The interleaving is open
(R116, U16, U17), so it is data of the state and then a free value (log entry 5). -/
inductive Turn where
  /-- The Engine takes the step its control point names. -/
  | engine
  /-- The RxProducer pushes the first pending byte (R63). -/
  | rx
  /-- The clock advances (R74). -/
  | tick (d : Nat)
  /-- The alarm expires (R75). -/
  | expire
  /-- The CommandUnit performs the active command's work step (R82). -/
  | work (effects : List Effect) (r : WsResult)
  /-- Inside a work step that has not returned, the CommandUnit sends one byte (R53, R82). -/
  | workSends (b : Byte)
  /-- Inside a work step that has not returned, the CommandUnit calls REQUEST (R84). -/
  | workRequests (n : Nat)
  /-- The caller starts the engine (R126). -/
  | start (caps : Caps) (timeout chipId : Nat)
  /-- The host hands bytes to the UART (R29, R59). -/
  | hostSends (bs : List Byte)
  /-- The platform enables interrupts (R128, R130). -/
  | platformEnables
  /-- Outside a session, the platform sets the launch input `IE` (R27, R34). -/
  | platformSetsGate (b : Bool)
  /-- Outside a session, the platform sets the launch inputs of the alarm device (R34). -/
  | platformSetsAlarm (deadline : Option Nat) (enabled : Bool)
deriving DecidableEq, Repr, Inhabited

/-- FREE VALUE (log entry 5): which agent moves, once the turns listed in the state are used up. The spec fixes no
order ("any value (any interleaving)", U16), so nothing is known of it. -/
opaque Config.freeTurn : Nat → Turn

end Sys2Proof
end

