-- ==== Sys2Proof/Syntax.lean ====
section
/-!
DEFINITION. The operations of the block: one constructor for each row of spec/opcode_table.json, in the table's order.
-/

namespace Sys2Proof

/-- One row of spec/opcode_table.json each: the seven host-to-core tokens (W1, W2, W3), the three sent bytes (T1) and
the interface operations (OP), with the operand fields of 30_encoding.md. -/
inductive Instr where
  /-- INIT, W1, `b = INIT_BYTE` (R94). -/
  | init
  /-- QUIT, W1, `b = QUIT_BYTE` (R95). -/
  | quit
  /-- NOISE, W1, any other byte (R96). -/
  | noise (b : Byte)
  /-- CMD_BADSUM, W2, `k ≠ ~o` (R97). -/
  | cmdBadsum (o k : Byte)
  /-- CMD_UNSUPPORTED, W2, `k = ~o`, `o` unregistered (R98). -/
  | cmdUnsupported (o : Byte)
  /-- CMD_SELECT, W2, `k = ~o`, `o` registered (R99). -/
  | cmdSelect (o : Byte)
  /-- SUBFRAME, W3, the bytes of the sub-frame (R52, R100). -/
  | subframe (bs : List Byte)
  /-- TX_ACK, T1, `b = ACK_BYTE` (R53, R94). -/
  | txAck
  /-- TX_NACK, T1, `b = NACK_BYTE` (R53, R98). -/
  | txNack
  /-- TX_DATA, T1, a byte sent by a work step (R53, R82). -/
  | txData (b : Byte)
  /-- PUSH(b) (R63). -/
  | push (b : Byte)
  /-- DRAIN(n) (R64). -/
  | drain (n : Nat)
  /-- RB_RESET (R65). -/
  | rbReset
  /-- VALIDATE(frame) (R69). -/
  | validate (frame : List Byte)
  /-- LOOKUP(o) (R81). -/
  | lookup (o : Byte)
  /-- ALARM_ARM, operand TIMEOUT (R73). -/
  | alarmArm (timeout : Nat)
  /-- TICK(d) (R74). -/
  | tick (d : Nat)
  /-- ALARM_EXPIRE (R75). -/
  | alarmExpire
  /-- ALARM_DISARM (R76). -/
  | alarmDisarm
  /-- REQUEST(n) (R84). -/
  | request (n : Nat)
  /-- WORK_STEP(op) with the effects the command unit chose and its result (R82, R86). -/
  | workStep (op : Byte) (effects : List Effect) (r : WsResult)
  /-- WS_CALL, the engine's call of the work step (R100). -/
  | wsCall (op : Byte)
  /-- WS_DONE (R101). -/
  | wsDone
  /-- WS_CONTINUE (R102). -/
  | wsContinue
  /-- START(CAPS, TIMEOUT, CHIP_ID) (R126). -/
  | start (caps : Caps) (timeout chipId : Nat)
  /-- ENTRY (R126). -/
  | entry
  /-- CFG_CHECK(CAPS, TIMEOUT) (R127). -/
  | cfgCheck (caps : Caps) (timeout : Nat)
  /-- GUARD (R89). -/
  | guard
  /-- WDG (R90). -/
  | wdg
  /-- AVAIL (R91). -/
  | avail
  /-- DISPATCH (R93). -/
  | dispatch
  /-- EXIT, operand `endCause` (R110); `none` is code 0. -/
  | exit (cause : Option EndCause)
deriving DecidableEq, Repr, Inhabited

end Sys2Proof
end

