-- ==== Sys2Proof/Machine/Operands.lean ====
section
/-!
DEFINITION. The combinational functions of the operands: FMAX, LOOKUP, VALIDATE, CFG_CHECK, and the codes of the two
small encodings of 30_encoding.md and 60_exceptions.md. None of them reads the state.
-/

namespace Sys2Proof

/-- `CHECKSUM_SIZE` (R8). -/
def checksumSize : Nat := 1

/-- `GENERIC_FRAME`, the command-selection frame size (R8). -/
def genericFrame : Nat := 1 + checksumSize

/-- `FMAX = min(C, S)`, the largest frame the engine may request (00_scope.md section 3, D9). -/
def Params.fmax (p : Params) : Nat := min p.capacity p.stagingSize

/-- LOOKUP(o) (R81): `REGISTRY(o)` if defined. The first descriptor listed under an opcode is its descriptor
(log entry 21). -/
def Params.lookup (p : Params) (o : Byte) : Option Descriptor :=
  p.registry.find? (fun d => d.opcode == o)

/-- The descriptors of the registry: every `d` with `REGISTRY(o) = d` for some opcode `o` (R79, R127). -/
def Params.descriptors (p : Params) : List Descriptor :=
  p.registry.filter (fun d => p.lookup d.opcode == some d)

/-- A configuration is refused before any run exactly when its two sentinels are equal (R10, U7). -/
def Params.sentinelsClash (p : Params) : Bool := p.quitByte == p.initByte

/-- VALIDATE's loop (R69): `x` is the XOR of the bytes seen so far, the last byte is compared, never XORed. -/
def validateFrom (x : Byte) : List Byte → Bool
  | [] => false
  | [c] => ~~~x == c
  | b :: c :: rest => validateFrom (x ^^^ b) (c :: rest)

/-- VALIDATE(frame) (R69). -/
def validate (frame : List Byte) : Bool := validateFrom 0x00 frame

/-- CFG_CHECK(CAPS, TIMEOUT) (R127): capabilities before bounds. -/
def Params.cfgCheck (p : Params) (caps : Caps) (timeout : Nat) : Option EndCause :=
  if !(caps.tx && caps.irqGate && caps.wdg && caps.flash) then some .configCaps
  else if timeout ≠ 0 && !caps.timer then some .configCaps
  else if p.logEnabled && !caps.log then some .configCaps
  else if p.fmax < genericFrame then some .configBound
  else if p.descriptors.any (fun d => p.fmax < d.extraFrameBytes) then some .configBound
  else none

/-- The end-cause codes (R106); code 0 is "none: session live". -/
def EndCause.code : EndCause → Nat
  | .configCaps => 1
  | .configBound => 2
  | .quit => 3
  | .timeout => 4
  | .checksumFail => 5
  | .unsupported => 6

/-- The work-step result's bit (R55): `Done = 1`, `Continue = 0`. -/
def WsResult.bit : WsResult → BitVec 1
  | .done => 1
  | .cont => 0

/-- The result the engine returns for a cause: `c in {QUIT, TIMEOUT}` (R106, R110). -/
def endResult (c : Option EndCause) : Bool := c == some .quit || c == some .timeout

/-- R82: what a work step may do. -/
def Effect.allowed : Effect → Bool
  | .breach _ => false
  | _ => true

/-- A REQUEST among the effects stays within FMAX (R84). -/
def Effect.inRange (p : Params) : Effect → Bool
  | .request n => n ≤ p.fmax
  | _ => true

end Sys2Proof
end

