-- ==== Sys2Proof/Machine/State.lean ====
section
/-!
DEFINITION. The state of the block (10_state.md): block state, interface state, bookkeeping, the configuration it runs
under, and the model's own fields; the reasons a step can stop; the state before the first start.
-/

namespace Sys2Proof.Machine

/-- The engine control point `pc` (R24). -/
inductive ControlPoint where
  | idle
  | entry
  | guard
  | wdg
  | avail
  | drain
  | dispatch
  | cmdWait
  | exit
  | stopped
deriving DecidableEq, Repr, Inhabited

/-- The source's state-machine state, derived from the control fields (R25). -/
inductive Phase where
  | notStarted
  | awaitingInit
  | awaitingCommand
  | executingCommand
  | sessionEnded
deriving DecidableEq, Repr, Inhabited

/-- The events (R14). -/
inductive Event where
  | tx (b : Byte)
  | irqDisable
  | irqEnable
  | wdgFeed
  | getTime (t : Nat)
  | setAlarm (t : Nat)
  | alarmEnable
  | alarmDisable
  | log (m : LogRecord)
  | workStep (op : Byte)
  | wsRet (r : WsResult)
  | sessionRet (v : Bool)
deriving DecidableEq, Repr, Inhabited

/-- The fault reasons (R113). A fault marks a violated precondition of the source, not a behaviour of the block: the
mark is written into `State.fault` (R14, R32) and the next `step` answers it. Each is safe: the model stops where the
source defines nothing (log entry 10). -/
inductive Fault where
  /-- Raised by DRAIN when fewer than `n` bytes are buffered (R64). Safe. -/
  | drainUnderflow
  /-- Raised by REQUEST when `n > FMAX` (R84). Safe. -/
  | requestRange
  /-- Raised by any access to RB or STG at an index outside the memory (R36). Safe. -/
  | index
  /-- Raised by WORK_STEP when the command unit breaches its contract (R86). Safe. -/
  | contract
  /-- Raised by DRAIN, DISPATCH or WORK_STEP when it reads a cell marked UNWRITTEN (R113, U13). Safe. -/
  | unwrittenRead
deriving DecidableEq, Repr, Inhabited

/-- The reasons an operation is refused. -/
inductive Refusal where
  /-- Raised by no meaning: an arm of `exec` that has none yet. Safe. -/
  | notModelled (mnemonic : String)
  /-- Raised by START when `QUIT_BYTE = INIT_BYTE`: such a configuration is refused before any run (R10, U7). Safe. -/
  | sentinelClash
deriving DecidableEq, Repr, Inhabited

/-- What a combinational operation executed by itself answers: the model's own field `output` (log entry 13). -/
inductive Output where
  /-- The Boolean of VALIDATE (R69). -/
  | valid (b : Bool)
  /-- The descriptor, or `None`, of LOOKUP (R81). -/
  | descriptor (d : Option Descriptor)
  /-- The cause, or `None`, of CFG_CHECK (R127). -/
  | config (c : Option EndCause)
deriving DecidableEq, Repr, Inhabited

/-- A byte memory (R35): the written cells, addresses strictly rising. A cell that is not listed is `UNWRITTEN`: it
holds no value, and reading it faults (log entry 12). -/
abbrev Mem := List Host.Cell

/-- The ring buffer (R18). -/
structure Ring where
  /-- `rb.buf`, memory space RB. -/
  buf : Mem
  /-- `rb.head`, index of the oldest buffered byte. -/
  head : Nat
  /-- `rb.tail`, index the next pushed byte goes to. -/
  tail : Nat
  /-- `rb.count`, number of buffered bytes. -/
  count : Nat
  /-- `rb.ovf`, `OVF_BITS = 32` bits, wraps (R62, D6). -/
  ovf : BitVec 32
deriving DecidableEq, Repr, Inhabited

/-- The alarm device (R28). -/
structure Alarm where
  deadline : Option Nat
  enabled : Bool
deriving DecidableEq, Repr, Inhabited

/-- The state of the model (R16). -/
structure State where
  /-- The parameters (00_scope.md section 3); no operation changes them. -/
  cfg : Params
  /-- The start inputs `CAPS`, `TIMEOUT`, `CHIP_ID` the session runs under (R126). -/
  inputs : StartInputs
  /-- The ring buffer (R18). -/
  rb : Ring
  /-- The handshake has completed (R20, R21). -/
  hostInitDone : Bool
  /-- The inactivity alarm has expired (R20, R22). -/
  timedOut : Bool
  /-- Bytes the next DRAIN takes (R20, R85). -/
  expectedByteCount : Nat
  /-- The staging area, memory space STG (R20, R35). -/
  staging : Mem
  /-- The active command's opcode (R20, R23). -/
  selectedCommand : Option Byte
  /-- How many bytes the latest DRAIN delivered (R20). -/
  stagedLen : Nat
  /-- The engine control point (R24). -/
  pc : ControlPoint
  /-- The end cause (R26, R106). -/
  endCause : Option EndCause
  /-- The Boolean returned to the caller (R26, R110). -/
  result : Option Bool
  /-- Entry armed the alarm (R26, R73). -/
  armed : Bool
  /-- The global interrupt gate `IE` (R27). -/
  ie : Bool
  /-- The alarm device's clock (R28). -/
  now : Nat
  /-- The alarm device (R28). -/
  alarm : Alarm
  /-- `uart.pending`: received bytes not yet pushed (R29). -/
  uartPending : List Byte
  /-- `cmd.priv`: the commands' private state, as a byte sequence (R30; log entry 7). -/
  cmdPriv : List Byte
  /-- The event history (R31). -/
  hist : List Event
  /-- The fault mark (R32). -/
  fault : Option Fault
  /-- MODEL'S OWN: the result a work step returned and the engine has not yet taken (log entry 8). -/
  wsResult : Option WsResult
  /-- MODEL'S OWN: what the latest combinational operation executed by itself answered (log entry 13). -/
  output : Option Output
  /-- MODEL'S OWN: the coming turns of the agents (log entry 5). -/
  turns : List Turn
  /-- MODEL'S OWN: how many free turns have been taken (log entry 5). -/
  turnNo : Nat
deriving DecidableEq, Repr, Inhabited

/-- The state before the first start under the parameters `p` (R34, R125): `pc = IDLE`, no event, no fault. The launch
inputs and the fields the spec leaves unspecified hold the values of log entries 2, 3, 4, 5, 7, 8 and 13. -/
def State.resetWith (p : Params) : State where
  cfg := p
  inputs := ⟨⟨false, false, false, false, false, false⟩, 0, 0⟩
  rb := ⟨[], 0, 0, 0, 0⟩
  hostInitDone := false
  timedOut := false
  expectedByteCount := 0
  staging := []
  selectedCommand := none
  stagedLen := 0
  pc := .idle
  endCause := none
  result := none
  armed := false
  ie := true
  now := 0
  alarm := ⟨none, false⟩
  uartPending := []
  cmdPriv := []
  hist := []
  fault := none
  wsResult := none
  output := none
  turns := []
  turnNo := 0

/-- The state before the first start, under REF (log entry 1). -/
def State.reset : State := State.resetWith Params.ref

/-- How the pseudocode of one rule ends: it ran through, or it raised a fault (R14) after the effects so far. -/
inductive Ran where
  | ok (s : State)
  | raised (r : Fault) (s : State)
deriving DecidableEq, Repr

end Sys2Proof.Machine
end

