-- ==== Sys2Proof/Machine/Flags.lean ====
section
/-!
DEFINITION. The block has no condition flags; what stands in their place are the predicates over the session's
Booleans: the phase (R25), the loop guard (R77), the masks of the two interrupt sources (R63, R75, R115).
-/

namespace Sys2Proof.Machine

/-- The source's state-machine state (R25). -/
def phase (s : State) : Phase :=
  match s.pc with
  | .exit => .sessionEnded
  | .stopped => .sessionEnded
  | .idle => .notStarted
  | .entry => .notStarted
  | _ =>
    if s.hostInitDone then
      match s.selectedCommand with
      | none => .awaitingCommand
      | some _ => .executingCommand
    else .awaitingInit

/-- The timeout arbiter (R77): true keeps looping, false ends the session. -/
def guardHolds (s : State) : Bool := !s.timedOut || s.hostInitDone

/-- PUSH(b) is enabled (R63): interrupts are on, `b` is the first pending byte, the engine has not stopped. -/
def pushEnabled (b : Byte) (s : State) : Bool :=
  s.ie && s.uartPending.head? == some b && s.pc != .stopped

/-- ALARM_EXPIRE is enabled (R75). -/
def expireEnabled (s : State) : Bool :=
  s.alarm.enabled && (match s.alarm.deadline with | none => false | some t => t ≤ s.now) && s.ie && s.pc != .stopped

/-- ALARM_EXPIRE is installed as the alarm's expiry callback: the caller installs it before START only if `TIMEOUT != 0`
(R130), so with `TIMEOUT = 0` no expiry occurs (R78). At IDLE no start input exists yet (log entry 24). -/
def callbackInstalled (s : State) : Bool := s.pc == .idle || s.inputs.timeout != 0

/-- The engine is at DISPATCH in the phase `ph`: the condition of a token row (R56, R93). -/
def dispatchIn (ph : Phase) (s : State) : Bool := s.pc == .dispatch && phase s == ph

/-- The engine waits for a work step of `op` that has not returned (R82, R100). -/
def working (op : Byte) (s : State) : Bool :=
  s.pc == .cmdWait && s.selectedCommand == some op && s.wsResult.isNone

/-- The caller may start a session: from `IDLE` or `STOPPED` (R126). -/
def startable (s : State) : Bool := s.pc == .idle || s.pc == .stopped

end Sys2Proof.Machine
end

