-- ==== Sys2Proof/Machine/Ops.lean ====
section
/-!
DEFINITION. The named operations over the two byte memories and the fields of the state, and the block's one trap-like
transfer, `raise End` (R107) with EXIT beside it (R110; there is no return from it, R112), and `raise Fault` (R14).
-/

namespace Sys2Proof.Machine

/-! The two byte memories (R35, R36). -/

/-- The byte of a cell; `none` where the cell is UNWRITTEN. -/
def readCell : Mem → Nat → Option Byte
  | [], _ => none
  | (a, b) :: m, i => if i = a then some b else if i < a then none else readCell m i

/-- The memory with one cell written, in the canonical form. -/
def writeCell : Mem → Nat → Byte → Mem
  | [], i, v => [(i, v)]
  | (a, b) :: m, i, v =>
    if i < a then (i, v) :: (a, b) :: m
    else if i = a then (i, v) :: m
    else (a, b) :: writeCell m i v

/-- The canonical form: addresses strictly rising. -/
def Mem.wf : Mem → Bool
  | [] => true
  | [_] => true
  | (a, _) :: (a', b') :: m => a < a' && Mem.wf ((a', b') :: m)

/-- Every listed address is below `bound`. -/
def Mem.below (bound : Nat) (m : Mem) : Bool := m.all (fun c => c.1 < bound)

/-! Updates of one field. -/

/-- `emit E` (R14). -/
def State.emit (s : State) (e : Event) : State := { s with hist := s.hist ++ [e] }
/-- `hist <- []` (R126). -/
def State.clearHist (s : State) : State := { s with hist := [] }
/-- `pc <- P` (R13). -/
def State.setPc (s : State) (p : ControlPoint) : State := { s with pc := p }
/-- Writes the gate `IE` (R27). -/
def State.setIe (s : State) (b : Bool) : State := { s with ie := b }
/-- Writes the ring's fields (R18). -/
def State.setRing (s : State) (r : Ring) : State := { s with rb := r }
/-- Writes the staging memory (R35). -/
def State.setStaging (s : State) (m : Mem) : State := { s with staging := m }
/-- Writes `stagedLen` (R20). -/
def State.setStagedLen (s : State) (n : Nat) : State := { s with stagedLen := n }
/-- Writes `expectedByteCount` (R20). -/
def State.setExpected (s : State) (n : Nat) : State := { s with expectedByteCount := n }
/-- Writes `selectedCommand` (R20). -/
def State.setSelected (s : State) (o : Option Byte) : State := { s with selectedCommand := o }
/-- Writes `hostInitDone` (R20). -/
def State.setInitDone (s : State) (b : Bool) : State := { s with hostInitDone := b }
/-- Writes `timedOut` (R20). -/
def State.setTimedOut (s : State) (b : Bool) : State := { s with timedOut := b }
/-- Writes `endCause` (R26). -/
def State.setEndCause (s : State) (c : Option EndCause) : State := { s with endCause := c }
/-- Writes `result` (R26). -/
def State.setResult (s : State) (r : Option Bool) : State := { s with result := r }
/-- Writes `armed` (R26). -/
def State.setArmed (s : State) (b : Bool) : State := { s with armed := b }
/-- Writes the alarm device (R28). -/
def State.setAlarm (s : State) (a : Alarm) : State := { s with alarm := a }
/-- Writes the clock (R28). -/
def State.setNow (s : State) (t : Nat) : State := { s with now := t }
/-- Writes `uart.pending` (R29). -/
def State.setPending (s : State) (bs : List Byte) : State := { s with uartPending := bs }
/-- Writes `cmd.priv` (R30). -/
def State.setPriv (s : State) (v : List Byte) : State := { s with cmdPriv := v }
/-- Writes the fault mark (R32). -/
def State.setFault (s : State) (r : Option Fault) : State := { s with fault := r }
/-- Writes the work step's result (log entry 8). -/
def State.setWsResult (s : State) (r : Option WsResult) : State := { s with wsResult := r }
/-- Writes the answer of a combinational operation (log entry 13). -/
def State.setOutput (s : State) (o : Output) : State := { s with output := some o }
/-- Holds the start inputs (R126). -/
def State.setInputs (s : State) (x : StartInputs) : State := { s with inputs := x }
/-- Writes the coming turns and the number of free turns taken (log entry 5). -/
def State.setTurns (s : State) (ts : List Turn) (n : Nat) : State := { s with turns := ts, turnNo := n }

/-! Sequencing of a rule's pseudocode. -/

/-- The rest of a rule's pseudocode runs unless a fault was raised before it. -/
def Ran.andThen (x : Ran) (f : State → Ran) : Ran :=
  match x with
  | .ok s => f s
  | .raised r s => .raised r s

/-- The step's outcome: a raised fault marks the state (R14, R32; log entry 10). -/
def Ran.settle (x : Ran) : Host.Outcome State Fault Refusal :=
  match x with
  | .ok s => .next s
  | .raised r s => .next (s.setFault (some r))

/-! Accesses to RB and STG (R13, R36, R113). -/

/-- `MemRead` of one byte of a memory with `bound` cells. -/
def memRead (bound : Nat) (m : Mem) (i : Nat) : Except Fault Byte :=
  if i < bound then
    match readCell m i with
    | some b => .ok b
    | none => .error .unwrittenRead
  else .error .index

/-- `MemRead(RB, i, 1)`. -/
def ringRead (s : State) (i : Nat) : Except Fault Byte := memRead s.cfg.capacity s.rb.buf i

/-- `MemRead(STG, i, 1)`. -/
def stagingRead (s : State) (i : Nat) : Except Fault Byte := memRead s.cfg.stagingSize s.staging i

/-- `MemWrite(RB, i, 1, v)`. -/
def ringWrite (i : Nat) (v : Byte) (s : State) : Ran :=
  if i < s.cfg.capacity then .ok (s.setRing { s.rb with buf := writeCell s.rb.buf i v })
  else .raised .index s

/-- `MemWrite(STG, i, 1, v)`. -/
def stagingWrite (i : Nat) (v : Byte) (s : State) : Ran :=
  if i < s.cfg.stagingSize then .ok (s.setStaging (writeCell s.staging i v))
  else .raised .index s

/-- The bytes `staging[k .. k+n-1]`. -/
def stagingBytes (s : State) : Nat → Nat → Except Fault (List Byte)
  | 0, _ => .ok []
  | n + 1, k =>
    match stagingRead s k, stagingBytes s n (k + 1) with
    | .ok b, .ok bs => .ok (b :: bs)
    | .error r, _ => .error r
    | .ok _, .error r => .error r

/-! Capabilities (R118) and the request of a frame size. -/

/-- `emit irq_disable; IE <- false` (R27). -/
def irqDisable (s : State) : State := (s.emit .irqDisable).setIe false

/-- `emit irq_enable; IE <- true` (R27). -/
def irqEnable (s : State) : State := (s.emit .irqEnable).setIe true

/-- `emit tx(b)` through send-byte (R119). -/
def sendByte (b : Byte) (s : State) : State := s.emit (.tx b)

/-- REQUEST(n) (R84). -/
def request (n : Nat) (s : State) : Ran :=
  if s.cfg.fmax < n then .raised .requestRange s else .ok (s.setExpected n)

/-! The session end (60_exceptions.md). -/

/-- `raise End(c)` (R107): the block's one trap-like transfer. -/
def raiseEnd (c : EndCause) (s : State) : State := (s.setEndCause (some c)).setPc .exit

/-- ALARM_DISARM (R76). -/
def disarm (s : State) : State :=
  (s.emit .alarmDisable).setAlarm { s.alarm with enabled := false }

/-- The EXIT sequence (R110) for the cause `c`; nothing returns from it (R112). -/
def endSession (c : Option EndCause) (s : State) : State :=
  let s := if s.armed then disarm s else s
  let s := if s.inputs.caps.irqGate then irqDisable s else s
  let s := s.setResult (some (endResult c))
  (s.emit (.sessionRet (endResult c))).setPc .stopped

/-! The parts of ENTRY that are operations of their own. -/

/-- RB_RESET (R65). -/
def resetRing (s : State) : State := s.setRing ⟨[], 0, 0, 0, 0⟩

/-- ALARM_ARM (R73). -/
def arm (timeout : Nat) (s : State) : State :=
  if timeout = 0 then s.setArmed false
  else
    ((((s.emit (.getTime s.now)).emit (.setAlarm (s.now + timeout))).emit .alarmEnable).setAlarm
      ⟨some (s.now + timeout), true⟩).setArmed true

/-! The ring (40_ring_buffer.md). -/

/-- PUSH's effect once the byte has left `uart.pending` (R63). -/
def pushByte (b : Byte) (s : State) : Ran :=
  if s.pc = .idle ∨ s.pc = .entry then .ok s
  else if s.rb.count < s.cfg.capacity then
    (ringWrite s.rb.tail b s).andThen fun s =>
      .ok (s.setRing { s.rb with tail := (s.rb.tail + 1) % s.cfg.capacity, count := s.rb.count + 1 })
  else if s.cfg.overflowPolicy = .overwriteOldest then
    (ringWrite s.rb.tail b s).andThen fun s =>
      .ok (s.setRing { s.rb with
        tail := (s.rb.tail + 1) % s.cfg.capacity
        head := (s.rb.tail + 1) % s.cfg.capacity
        ovf := s.rb.ovf + 1 })
  else .ok (s.setRing { s.rb with ovf := s.rb.ovf + 1 })

/-- DRAIN's loop (R64): `n` bytes still to copy, from ring position `k` past the head to staging index `k`. -/
def copyFrame : Nat → Nat → State → Ran
  | 0, _, s => .ok s
  | n + 1, k, s =>
    match ringRead s ((s.rb.head + k) % s.cfg.capacity) with
    | .error r => .raised r s
    | .ok b => (stagingWrite k b s).andThen (copyFrame n (k + 1))

/-- DRAIN(n) (R64), one critical section (R44). -/
def drainFrame (n : Nat) (s : State) : Ran :=
  let s := irqDisable s
  if s.rb.count < n then .raised .drainUnderflow s
  else
    (copyFrame n 0 s).andThen fun s =>
      let s := s.setRing { s.rb with head := (s.rb.head + n) % s.cfg.capacity, count := s.rb.count - n }
      .ok ((irqEnable (s.setStagedLen n)).setPc .dispatch)

/-! The token handlers (44_engine.md sections 3 to 5): DISPATCH and the token rows share them. -/

/-- INIT (R94). -/
def initHandler (s : State) : Ran :=
  (request genericFrame (s.setInitDone true)).andThen fun s =>
    .ok ((sendByte s.cfg.ackByte s).setPc .guard)

/-- QUIT (R95). -/
def quitHandler (s : State) : Ran := .ok (raiseEnd .quit s)

/-- NOISE (R96). -/
def noiseHandler (s : State) : Ran := (request 1 s).andThen fun s => .ok (s.setPc .guard)

/-- CMD_BADSUM (R97). -/
def badsumHandler (s : State) : Ran :=
  .ok (raiseEnd .checksumFail (if s.cfg.logEnabled then s.emit (.log .checksumFail) else s))

/-- CMD_UNSUPPORTED (R98). -/
def unsupportedHandler (s : State) : Ran := .ok (raiseEnd .unsupported (sendByte s.cfg.nackByte s))

/-- CMD_SELECT (R99) of the opcode `o` with descriptor `d`. -/
def selectHandler (o : Byte) (d : Descriptor) (s : State) : Ran :=
  (request d.extraFrameBytes (s.setSelected (some o))).andThen fun s => .ok (s.setPc .guard)

/-- The work-step call (R100). No result is outstanding then (log entry 8). -/
def callWorkStep (op : Byte) (s : State) : Ran :=
  .ok (((s.emit (.workStep op)).setWsResult none).setPc .cmdWait)

/-! The work step (43_registry.md). -/

/-- What a work step is given (R83). REQUEST, send-byte, feed-watchdog and flash are always in it; the log sink only
when present. -/
structure WorkContext where
  op : Byte
  frame : List Byte
  stagedLen : Nat
  chipId : Nat
  logSink : Bool
deriving DecidableEq, Repr

/-- The context handed to the work step of `op` (R83). -/
def workContext (op : Byte) (s : State) : Except Fault WorkContext :=
  match stagingBytes s s.stagedLen 0 with
  | .ok frame => .ok ⟨op, frame, s.stagedLen, s.inputs.chipId, s.inputs.caps.log⟩
  | .error r => .error r

/-- One effect of a work step (R82, R86). Flash contents are outside the block (log entry 18); a log sink that is not
in the context cannot be called (log entry 17). -/
def applyEffect (ctx : WorkContext) (e : Effect) (s : State) : Ran :=
  match e with
  | .sendByte b => .ok (sendByte b s)
  | .feedWatchdog => .ok (s.emit .wdgFeed)
  | .flash _ => .ok s
  | .log m => if ctx.logSink then .ok (s.emit (.log m)) else .raised .contract s
  | .request n => request n s
  | .setPriv v => .ok (s.setPriv v)
  | .breach _ => .raised .contract s

/-- The effects of a work step in the order it makes them. -/
def applyEffects (ctx : WorkContext) : List Effect → State → Ran
  | [], s => .ok s
  | e :: es, s => (applyEffect ctx e s).andThen (applyEffects ctx es)

end Sys2Proof.Machine
end

