-- ==== Sys2Proof/Machine/Checksum.lean ====
section
/-!
DEFINITION. The meaning of VALIDATE (41_checksum.md): a pure function of its operand, whose answer the model keeps in
`output` (log entry 13).
-/

namespace Sys2Proof.Machine

/-- VALIDATE(frame) (R69): no field of the block is written. -/
def execValidate (frame : List Byte) (s : State) : Host.Outcome State Fault Refusal :=
  .next (s.setOutput (.valid (Sys2Proof.validate frame)))

end Sys2Proof.Machine
end

