-- ==== Sys2Proof/Machine/Engine.lean ====
section
/-!
DEFINITION. The meanings of the iteration steps GUARD, WDG, AVAIL and DISPATCH (44_engine.md sections 1 and 2).
An operation whose enabling condition fails takes no step (log entry 9).
-/

namespace Sys2Proof.Machine

/-- GUARD (R89). -/
def execGuard (s : State) : Host.Outcome State Fault Refusal :=
  if s.pc = .guard then
    if guardHolds s then .next (s.setPc .wdg) else .next (raiseEnd .timeout s)
  else .next s

/-- WDG (R90). -/
def execWdg (s : State) : Host.Outcome State Fault Refusal :=
  if s.pc = .wdg then .next ((s.emit .wdgFeed).setPc .avail) else .next s

/-- AVAIL (R91), outside any critical section (R45). -/
def execAvail (s : State) : Host.Outcome State Fault Refusal :=
  if s.pc = .avail then
    if s.rb.count < s.expectedByteCount then .next (s.setPc .guard) else .next (s.setPc .drain)
  else .next s

/-- DISPATCH's choice of exactly one handler (R93). -/
def dispatchHandler (s : State) : Ran :=
  match phase s with
  | .awaitingInit =>
    match stagingRead s 0 with
    | .error r => .raised r s
    | .ok b =>
      if b = s.cfg.initByte then initHandler s
      else if b = s.cfg.quitByte then quitHandler s
      else noiseHandler s
  | .awaitingCommand =>
    match stagingRead s 0, stagingRead s 1 with
    | .error r, _ => .raised r s
    | .ok _, .error r => .raised r s
    | .ok o, .ok k =>
      if !validate [o, k] then badsumHandler s
      else
        match s.cfg.lookup o with
        | none => unsupportedHandler s
        | some d => selectHandler o d s
  | .executingCommand =>
    match s.selectedCommand with
    | some op => callWorkStep op s
    | none => .ok s
  | .notStarted => .ok s
  | .sessionEnded => .ok s

/-- DISPATCH (R93). -/
def execDispatch (s : State) : Host.Outcome State Fault Refusal :=
  if s.pc = .dispatch then (dispatchHandler s).settle else .next s

end Sys2Proof.Machine
end

