-- ==== Sys2Proof/Machine/Registry.lean ====
section
/-!
DEFINITION. The meanings of LOOKUP, WORK_STEP and REQUEST (43_registry.md).
An operation whose enabling condition fails takes no step (log entry 9).
-/

namespace Sys2Proof.Machine

/-- LOOKUP(o) (R81): no field of the block is written; the answer is kept in `output` (log entry 13). -/
def execLookup (o : Byte) (s : State) : Host.Outcome State Fault Refusal :=
  .next (s.setOutput (.descriptor (s.cfg.lookup o)))

/-- WORK_STEP(op) (R82) while the engine waits at CMD_WAIT: the command unit gets its context (R83), makes the effects
it chose (R86), and returns its result to the engine (log entry 8). -/
def execWorkStep (op : Byte) (effects : List Effect) (r : WsResult) (s : State) : Host.Outcome State Fault Refusal :=
  if working op s && (s.cfg.lookup op).isSome then
    match workContext op s with
    | .error f => (Ran.raised f s).settle
    | .ok ctx => ((applyEffects ctx effects s).andThen fun s => .ok (s.setWsResult (some r))).settle
  else .next s

/-- REQUEST(n) (R84). -/
def execRequest (n : Nat) (s : State) : Host.Outcome State Fault Refusal := (request n s).settle

end Sys2Proof.Machine
end

