-- ==== Sys2Proof/Machine/Ring.lean ====
section
/-!
DEFINITION. The meanings of the ring buffer operations PUSH, DRAIN and RB_RESET (40_ring_buffer.md).
An operation whose enabling condition fails takes no step (log entry 9).
-/

namespace Sys2Proof.Machine

/-- PUSH(b) (R63): the RxProducer appends the first pending byte. -/
def execPush (b : Byte) (s : State) : Host.Outcome State Fault Refusal :=
  if pushEnabled b s then (pushByte b (s.setPending s.uartPending.tail)).settle else .next s

/-- DRAIN(n) (R64, R92): an Engine step at `pc = DRAIN`. -/
def execDrain (n : Nat) (s : State) : Host.Outcome State Fault Refusal :=
  if s.pc = .drain then (drainFrame n s).settle else .next s

/-- RB_RESET (R65), a part of ENTRY. -/
def execRbReset (s : State) : Host.Outcome State Fault Refusal := .next (resetRing s)

end Sys2Proof.Machine
end

