-- ==== Sys2Proof/Machine/Session.lean ====
section
/-!
DEFINITION. The meanings of START, ENTRY, CFG_CHECK (70_reset_and_hazards.md) and EXIT (60_exceptions.md section 2).
An operation whose enabling condition fails takes no step (log entry 9).
-/

namespace Sys2Proof.Machine

/-- START(CAPS, TIMEOUT, CHIP_ID) (R126): the caller starts the engine from `IDLE` or `STOPPED`. A configuration with
`QUIT_BYTE = INIT_BYTE` is refused before any run (R10; log entry 11). -/
def execStart (caps : Caps) (timeout chipId : Nat) (s : State) : Host.Outcome State Fault Refusal :=
  if startable s then
    if s.cfg.sentinelsClash then .refused .sentinelClash
    else .next ((s.setInputs ⟨caps, timeout, chipId⟩).setPc .entry)
  else .next s

/-- What ENTRY writes before its configuration check (R126), and the model's own `wsResult` (log entry 8). -/
def entryClear (s : State) : State :=
  (((((s.clearHist).setFault none).setArmed false).setEndCause none).setResult none).setWsResult none

/-- What ENTRY writes once the configuration check has passed (R126). -/
def entryInit (s : State) : Ran :=
  let s := (((resetRing s).setInitDone false).setTimedOut false).setSelected none
  let s := (s.setStagedLen 0).setStaging []
  (request 1 s).andThen fun s => .ok ((arm s.inputs.timeout s).setPc .guard)

/-- ENTRY (R126). -/
def execEntry (s : State) : Host.Outcome State Fault Refusal :=
  if s.pc = .entry then
    match s.cfg.cfgCheck s.inputs.caps s.inputs.timeout with
    | some c => .next (raiseEnd c (entryClear s))
    | none => (entryInit (entryClear s)).settle
  else .next s

/-- CFG_CHECK(CAPS, TIMEOUT) (R127): the answer is kept in `output` (log entry 13). -/
def execCfgCheck (caps : Caps) (timeout : Nat) (s : State) : Host.Outcome State Fault Refusal :=
  .next (s.setOutput (.config (s.cfg.cfgCheck caps timeout)))

/-- EXIT (R110) for the end cause `c`. -/
def execExit (c : Option EndCause) (s : State) : Host.Outcome State Fault Refusal :=
  if s.pc = .exit then .next (endSession c s) else .next s

end Sys2Proof.Machine
end

