-- ==== Sys2Proof/Machine/Timer.lean ====
section
/-!
DEFINITION. The meanings of the inactivity timer's operations (42_timer.md).
An operation whose enabling condition fails takes no step (log entry 9).
-/

namespace Sys2Proof.Machine

/-- ALARM_ARM (R73), a part of ENTRY. -/
def execAlarmArm (timeout : Nat) (s : State) : Host.Outcome State Fault Refusal := .next (arm timeout s)

/-- TICK(d) (R74): always enabled, not gated by `IE`. -/
def execTick (d : Nat) (s : State) : Host.Outcome State Fault Refusal := .next (s.setNow (s.now + d))

/-- ALARM_EXPIRE (R75): one-shot. -/
def execAlarmExpire (s : State) : Host.Outcome State Fault Refusal :=
  if expireEnabled s then .next ((s.setTimedOut true).setAlarm { s.alarm with enabled := false }) else .next s

/-- ALARM_DISARM (R76), a part of EXIT. -/
def execAlarmDisarm (s : State) : Host.Outcome State Fault Refusal := .next (disarm s)

end Sys2Proof.Machine
end

