-- ==== Sys2Proof/Machine/Tokens.lean ====
section
/-!
DEFINITION. The meanings of the seven frame tokens and of the work-step call and return (44_engine.md sections 3 to 5).
Each token's condition is the one its row of spec/opcode_table.json states: the engine is at DISPATCH, in the row's
phase, and the frame's bytes select the row. Where it fails, the operation takes no step (log entry 9).
-/

namespace Sys2Proof.Machine

/-- INIT (R94). -/
def execInit (s : State) : Host.Outcome State Fault Refusal :=
  if dispatchIn .awaitingInit s then (initHandler s).settle else .next s

/-- QUIT (R95); a byte equal to `INIT_BYTE` is never a QUIT (R93). -/
def execQuit (s : State) : Host.Outcome State Fault Refusal :=
  if dispatchIn .awaitingInit s && s.cfg.quitByte != s.cfg.initByte then (quitHandler s).settle else .next s

/-- NOISE (R96). -/
def execNoise (b : Byte) (s : State) : Host.Outcome State Fault Refusal :=
  if dispatchIn .awaitingInit s && b != s.cfg.initByte && b != s.cfg.quitByte then (noiseHandler s).settle
  else .next s

/-- CMD_BADSUM (R97). -/
def execCmdBadsum (o k : Byte) (s : State) : Host.Outcome State Fault Refusal :=
  if dispatchIn .awaitingCommand s && !validate [o, k] then (badsumHandler s).settle else .next s

/-- CMD_UNSUPPORTED (R98). -/
def execCmdUnsupported (o : Byte) (s : State) : Host.Outcome State Fault Refusal :=
  if dispatchIn .awaitingCommand s && (s.cfg.lookup o).isNone then (unsupportedHandler s).settle else .next s

/-- CMD_SELECT (R99). -/
def execCmdSelect (o : Byte) (s : State) : Host.Outcome State Fault Refusal :=
  if dispatchIn .awaitingCommand s then
    match s.cfg.lookup o with
    | some d => (selectHandler o d s).settle
    | none => .next s
  else .next s

/-- SUBFRAME (R100): the active command's work step is called with the staged sub-frame. -/
def execSubframe (_bs : List Byte) (s : State) : Host.Outcome State Fault Refusal :=
  if dispatchIn .executingCommand s then
    match s.selectedCommand with
    | some op => (callWorkStep op s).settle
    | none => .next s
  else .next s

/-- WS_CALL (R100): the call of the work step of `op = selectedCommand`. -/
def execWsCall (op : Byte) (s : State) : Host.Outcome State Fault Refusal :=
  if dispatchIn .executingCommand s && s.selectedCommand == some op then (callWorkStep op s).settle else .next s

/-- WS_DONE (R101), once the work step has returned `Done`. -/
def execWsDone (s : State) : Host.Outcome State Fault Refusal :=
  if s.pc = .cmdWait ∧ s.wsResult = some .done then
    ((request genericFrame (((s.emit (.wsRet .done)).setWsResult none).setSelected none)).andThen fun s =>
      .ok (s.setPc .guard)).settle
  else .next s

/-- WS_CONTINUE (R102), once the work step has returned `Continue`. -/
def execWsContinue (s : State) : Host.Outcome State Fault Refusal :=
  if s.pc = .cmdWait ∧ s.wsResult = some .cont then
    .next (((s.emit (.wsRet .cont)).setWsResult none).setPc .guard)
  else .next s

end Sys2Proof.Machine
end

