-- ==== Sys2Proof/Machine/Transmit.lean ====
section
/-!
DEFINITION. The meanings of the three bytes the block sends (30_encoding.md section 2): each is one `tx` event through
send-byte (R53, R119). TX_ACK is a part of INIT, TX_NACK of CMD_UNSUPPORTED, TX_DATA of a work step.
-/

namespace Sys2Proof.Machine

/-- TX_ACK (R53, R94). -/
def execTxAck (s : State) : Host.Outcome State Fault Refusal := .next (sendByte s.cfg.ackByte s)

/-- TX_NACK (R53, R98). -/
def execTxNack (s : State) : Host.Outcome State Fault Refusal := .next (sendByte s.cfg.nackByte s)

/-- TX_DATA (R53, R82). -/
def execTxData (b : Byte) (s : State) : Host.Outcome State Fault Refusal := .next (sendByte b s)

end Sys2Proof.Machine
end

