-- ==== Sys2Proof/Machine/Dispatch.lean ====
section
/-!
DEFINITION. What each operation of spec/opcode_table.json does: one arm per constructor, in the table's order.
-/

namespace Sys2Proof.Machine

def exec (i : Instr) (s : State) : Host.Outcome State Fault Refusal :=
  match i with
  | .init => Sys2Proof.Machine.execInit s
  | .quit => Sys2Proof.Machine.execQuit s
  | .noise b => Sys2Proof.Machine.execNoise b s
  | .cmdBadsum o k => Sys2Proof.Machine.execCmdBadsum o k s
  | .cmdUnsupported o => Sys2Proof.Machine.execCmdUnsupported o s
  | .cmdSelect o => Sys2Proof.Machine.execCmdSelect o s
  | .subframe bs => Sys2Proof.Machine.execSubframe bs s
  | .txAck => Sys2Proof.Machine.execTxAck s
  | .txNack => Sys2Proof.Machine.execTxNack s
  | .txData b => Sys2Proof.Machine.execTxData b s
  | .push b => Sys2Proof.Machine.execPush b s
  | .drain n => Sys2Proof.Machine.execDrain n s
  | .rbReset => Sys2Proof.Machine.execRbReset s
  | .validate frame => Sys2Proof.Machine.execValidate frame s
  | .lookup o => Sys2Proof.Machine.execLookup o s
  | .alarmArm timeout => Sys2Proof.Machine.execAlarmArm timeout s
  | .tick d => Sys2Proof.Machine.execTick d s
  | .alarmExpire => Sys2Proof.Machine.execAlarmExpire s
  | .alarmDisarm => Sys2Proof.Machine.execAlarmDisarm s
  | .request n => Sys2Proof.Machine.execRequest n s
  | .workStep op effects r => Sys2Proof.Machine.execWorkStep op effects r s
  | .wsCall op => Sys2Proof.Machine.execWsCall op s
  | .wsDone => Sys2Proof.Machine.execWsDone s
  | .wsContinue => Sys2Proof.Machine.execWsContinue s
  | .start caps timeout chipId => Sys2Proof.Machine.execStart caps timeout chipId s
  | .entry => Sys2Proof.Machine.execEntry s
  | .cfgCheck caps timeout => Sys2Proof.Machine.execCfgCheck caps timeout s
  | .guard => Sys2Proof.Machine.execGuard s
  | .wdg => Sys2Proof.Machine.execWdg s
  | .avail => Sys2Proof.Machine.execAvail s
  | .dispatch => Sys2Proof.Machine.execDispatch s
  | .exit cause => Sys2Proof.Machine.execExit cause s

end Sys2Proof.Machine
end

