-- ==== Sys2Proof/WellFormed.lean ====
section
/-!
DEFINITION. Which instances of a row are operands the spec allows: the table's condition on a frame's bytes
(30_encoding.md section 1) and the ranges of the interface operations' operands (R55).
-/

namespace Sys2Proof

/-- The condition a row of spec/opcode_table.json puts on its operands under the parameters `p`. -/
def WellFormed (p : Params) : Instr → Bool
  | .init => true
  | .quit => p.quitByte != p.initByte
  | .noise b => b != p.initByte && b != p.quitByte
  | .cmdBadsum o k => k != ~~~o
  | .cmdUnsupported o => (p.lookup o).isNone
  | .cmdSelect o => (p.lookup o).isSome
  | .subframe bs => bs.length ≤ p.fmax
  | .txAck => true
  | .txNack => true
  | .txData _ => true
  | .push _ => true
  | .drain n => n ≤ p.fmax
  | .rbReset => true
  | .validate _ => true
  | .lookup _ => true
  | .alarmArm _ => true
  | .tick d => 1 ≤ d
  | .alarmExpire => true
  | .alarmDisarm => true
  | .request n => n ≤ p.fmax
  | .workStep op effects _ => (p.lookup op).isSome && effects.all (fun e => e.allowed && e.inRange p)
  | .wsCall op => (p.lookup op).isSome
  | .wsDone => true
  | .wsContinue => true
  | .start _ _ _ => !p.sentinelsClash
  | .entry => true
  | .cfgCheck _ _ => true
  | .guard => true
  | .wdg => true
  | .avail => true
  | .dispatch => true
  | .exit cause => cause.isSome

end Sys2Proof
end

