-- ==== Sys2Proof/Decode.lean ====
section
/-!
DEFINITION. The decoder of frames and sent bytes, total and rejecting by name, and the encoder after it
(30_encoding.md). The same byte means different things in different phases (R56), so a format, chosen by the phase and
`expectedByteCount`, comes with the bytes. The operations of format OP have no bit pattern (30_encoding.md).
-/

namespace Sys2Proof

/-- Who sends a T1 byte: the `condition` of the three T1 rows, which alone tells them apart (R53; log entry 14). -/
inductive Sender where
  | onInit
  | onUnsupported
  | workStep
deriving DecidableEq, Repr, Inhabited

/-- The frame and byte formats that have bits (30_encoding.md). -/
inductive Format where
  /-- The 1-byte AwaitingInit frame (R50). -/
  | w1
  /-- The 2-byte command-selection frame (R51). -/
  | w2
  /-- The `n`-byte sub-frame (R52). -/
  | w3 (n : Nat)
  /-- A byte the block sends (R53). -/
  | t1 (sender : Sender)
deriving DecidableEq, Repr, Inhabited

/-- Why the decoder refuses. -/
inductive DecodeError where
  /-- Fewer bytes than the format's frame has: the engine spins and reads none (R66, R91). -/
  | tooFewBytes (need got : Nat)
  /-- The byte sent on INIT is not `ACK_BYTE`: the engine sends no other (R53, R94). -/
  | notAck (b : Byte)
  /-- The byte sent on CMD_UNSUPPORTED is not `NACK_BYTE`: the engine sends no other (R53, R98). -/
  | notNack (b : Byte)
deriving DecidableEq, Repr, Inhabited

/-- The number of bytes of a format's frame (R50 to R53). -/
def Format.size : Format → Nat
  | .w1 => 1
  | .w2 => genericFrame
  | .w3 n => n
  | .t1 _ => 1

/-- The token of a W1 frame (R50), tested INIT before QUIT (R93). -/
def decodeW1 (p : Params) (b : Byte) : Instr :=
  if b = p.initByte then .init
  else if b = p.quitByte then .quit
  else .noise b

/-- The token of a W2 frame (R51), the checksum tested before the registry (R93). -/
def decodeW2 (p : Params) (o k : Byte) : Instr :=
  if !validate [o, k] then .cmdBadsum o k
  else if (p.lookup o).isNone then .cmdUnsupported o
  else .cmdSelect o

/-- The row of a sent byte (R53). -/
def decodeT1 (p : Params) (sender : Sender) (b : Byte) : Except DecodeError Instr :=
  match sender with
  | .onInit => if b = p.ackByte then .ok .txAck else .error (.notAck b)
  | .onUnsupported => if b = p.nackByte then .ok .txNack else .error (.notNack b)
  | .workStep => .ok (.txData b)

/-- The decoder: the first frame of the format cut from the bytes, and the bytes after it. Frames are not
self-delimiting (R58), so the format fixes how many bytes are taken. -/
def decode (p : Params) (f : Format) (bs : List Byte) : Except DecodeError (Instr × List Byte) :=
  match f, bs with
  | .w1, b :: rest => .ok (decodeW1 p b, rest)
  | .w2, o :: k :: rest => .ok (decodeW2 p o k, rest)
  | .w3 n, bs =>
    if n ≤ bs.length then .ok (.subframe (bs.take n), bs.drop n) else .error (.tooFewBytes n bs.length)
  | .t1 sender, b :: rest => (decodeT1 p sender b).map (fun i => (i, rest))
  | f, bs => .error (.tooFewBytes f.size bs.length)

/-- The format an operation's bytes have; the OP rows have none. -/
def formatOf : Instr → Option Format
  | .init => some .w1
  | .quit => some .w1
  | .noise _ => some .w1
  | .cmdBadsum _ _ => some .w2
  | .cmdUnsupported _ => some .w2
  | .cmdSelect _ => some .w2
  | .subframe bs => some (.w3 bs.length)
  | .txAck => some (.t1 .onInit)
  | .txNack => some (.t1 .onUnsupported)
  | .txData _ => some (.t1 .workStep)
  | .push _ => none
  | .drain _ => none
  | .rbReset => none
  | .validate _ => none
  | .lookup _ => none
  | .alarmArm _ => none
  | .tick _ => none
  | .alarmExpire => none
  | .alarmDisarm => none
  | .request _ => none
  | .workStep _ _ _ => none
  | .wsCall _ => none
  | .wsDone => none
  | .wsContinue => none
  | .start _ _ _ => none
  | .entry => none
  | .cfgCheck _ _ => none
  | .guard => none
  | .wdg => none
  | .avail => none
  | .dispatch => none
  | .exit _ => none

/-- The encoder: the bytes of an operation that has any, first byte first (30_encoding.md sections 1 and 2). -/
def encode (p : Params) : Instr → Option (List Byte)
  | .init => some [p.initByte]
  | .quit => some [p.quitByte]
  | .noise b => some [b]
  | .cmdBadsum o k => some [o, k]
  | .cmdUnsupported o => some [o, ~~~o]
  | .cmdSelect o => some [o, ~~~o]
  | .subframe bs => some bs
  | .txAck => some [p.ackByte]
  | .txNack => some [p.nackByte]
  | .txData b => some [b]
  | .push _ => none
  | .drain _ => none
  | .rbReset => none
  | .validate _ => none
  | .lookup _ => none
  | .alarmArm _ => none
  | .tick _ => none
  | .alarmExpire => none
  | .alarmDisarm => none
  | .request _ => none
  | .workStep _ _ _ => none
  | .wsCall _ => none
  | .wsDone => none
  | .wsContinue => none
  | .start _ _ _ => none
  | .entry => none
  | .cfgCheck _ _ => none
  | .guard => none
  | .wdg => none
  | .avail => none
  | .dispatch => none
  | .exit _ => none

/-- The bytes of a W3 table word: the first byte is the least significant (log entry 14). -/
def wordBytesLow : Nat → Nat → List Byte
  | 0, _ => []
  | n + 1, w => BitVec.ofNat 8 w :: wordBytesLow n (w / 256)

/-- The bytes of a table word, in the order the host sends them. The table numbers a W2 frame's opcode, its first byte,
15:8 and its checksum 7:0; a W1 frame is 7:0 (log entry 14). -/
def tableWordBytes (nbits w : Nat) : List Byte :=
  if nbits = 16 then [BitVec.ofNat 8 (w / 256), BitVec.ofNat 8 w]
  else wordBytesLow (nbits / 8) w

/-- The format of a table word, by its length: 8 bits are a W1 frame, 16 bits a W2 frame, any other whole number of
bytes (none, too) a W3 sub-frame. -/
def tableWordFormat (nbits : Nat) : Format :=
  if nbits = 8 then .w1 else if nbits = 16 then .w2 else .w3 (nbits / 8)

/-- What the decoder reads from a frame whose bits are `w`, numbered as the table numbers them, under REF. -/
def decodeTableWord (nbits w : Nat) : Option Instr :=
  match decode Params.ref (tableWordFormat nbits) (tableWordBytes nbits w) with
  | .ok (i, []) => some i
  | _ => none

end Sys2Proof
end

