-- ==== Sys2Proof/Machine/Fetch.lean ====
section
/-!
DEFINITION. Which operation the next step runs: the turn it belongs to, the operation an agent takes in its turn, and
for an engine turn at DISPATCH the token that the decoder reads from the staged frame (R24, R56, R88).
-/

namespace Sys2Proof.Machine

/-- The turn the next step belongs to: the first listed, else the free value (log entry 5). -/
def nextTurn (s : State) : Turn :=
  match s.turns with
  | t :: _ => t
  | [] => Config.freeTurn s.turnNo

/-- The state once that turn is taken off. -/
def afterTurn (s : State) : State :=
  match s.turns with
  | _ :: ts => s.setTurns ts s.turnNo
  | [] => s.setTurns [] (s.turnNo + 1)

/-- The format of the staged frame, chosen by the phase (R56). -/
def stagedFormat (s : State) : Option Format :=
  match phase s with
  | .awaitingInit => some .w1
  | .awaitingCommand => some .w2
  | .executingCommand => some (.w3 s.stagedLen)
  | .notStarted => none
  | .sessionEnded => none

/-- The token of the staged frame; `none` where a cell of it cannot be read. -/
def stagedToken (s : State) : Option Instr :=
  match stagedFormat s with
  | none => none
  | some f =>
    match stagingBytes s f.size 0 with
    | .error _ => none
    | .ok bs =>
      match decode s.cfg f bs with
      | .ok (i, _) => some i
      | .error _ => none

/-- The Engine's operation at its control point (R24); `none` where it takes no step: at IDLE and STOPPED (R125, R112)
and at CMD_WAIT until the work step returns (R88). -/
def engineOp (s : State) : Option Instr :=
  match s.pc with
  | .idle => none
  | .entry => some .entry
  | .guard => some .guard
  | .wdg => some .wdg
  | .avail => some .avail
  | .drain => some (.drain s.expectedByteCount)
  | .dispatch =>
    match stagedToken s with
    | some i => some i
    | none => some .dispatch
  | .cmdWait =>
    match s.wsResult with
    | some .done => some .wsDone
    | some .cont => some .wsContinue
    | none => none
  | .exit => some (.exit s.endCause)
  | .stopped => none

/-- The operation of a turn; `none` where the turn's agent has no operation to take or the turn is an input. -/
def fetch (t : Turn) (s : State) : Option Instr :=
  match t with
  | .engine => engineOp s
  | .rx => s.uartPending.head?.map Instr.push
  | .tick d => some (.tick d)
  | .expire => if callbackInstalled s then some .alarmExpire else none
  | .work effects r => s.selectedCommand.map (fun op => .workStep op effects r)
  | .workSends b => if s.pc = .cmdWait ∧ s.wsResult = none then some (.txData b) else none
  | .workRequests n => if s.pc = .cmdWait ∧ s.wsResult = none then some (.request n) else none
  | .start caps timeout chipId => some (.start caps timeout chipId)
  | .hostSends _ => none
  | .platformEnables => none
  | .platformSetsGate _ => none
  | .platformSetsAlarm _ _ => none

/-- What the outside world does in a turn that is an input (R29, R34, R123, R128; log entry 16). -/
def input (t : Turn) (s : State) : State :=
  match t with
  | .engine => s
  | .rx => s
  | .tick _ => s
  | .expire => s
  | .work _ _ => s
  | .workSends _ => s
  | .workRequests _ => s
  | .start _ _ _ => s
  | .hostSends bs => s.setPending (s.uartPending ++ bs)
  | .platformEnables => s.setIe true
  | .platformSetsGate b => if startable s then s.setIe b else s
  | .platformSetsAlarm deadline enabled => if startable s then s.setAlarm ⟨deadline, enabled⟩ else s

/-- The staging memory whose first cells hold the bytes. -/
def stageBytes : Nat → List Byte → Mem
  | _, [] => []
  | k, b :: bs => (k, b) :: stageBytes (k + 1) bs

/-- The state in which the next step dispatches the frame `bs` of format `f`: the frame staged, the phase its format
belongs to, an engine turn next (log entry 15). -/
def placeFrame (f : Format) (bs : List Byte) (s : State) : State :=
  let s := ((s.setStaging (stageBytes 0 bs)).setStagedLen bs.length).setPc .dispatch
  let s := (s.setFault none).setTurns (.engine :: s.turns) s.turnNo
  match f with
  | .w1 => (s.setInitDone false).setSelected none
  | .w2 => (s.setInitDone true).setSelected none
  | .w3 _ => (s.setInitDone true).setSelected (some (s.selectedCommand.getD 0x00))
  | .t1 _ => s

end Sys2Proof.Machine
end

