-- ==== Sys2Proof/Machine/Step.lean ====
section
/-!
DEFINITION. One step of the interleaving (R15, R43): the next turn's agent takes its operation, or its input arrives.
-/

namespace Sys2Proof.Machine

/-- One atomic step. A state marked faulted takes none: its fault is answered (R14, R32; log entry 10). A turn whose
agent has nothing to do passes. -/
def step (s : State) : Host.Outcome State Fault Refusal :=
  match s.fault with
  | some r => .fault r
  | none =>
    match fetch (nextTurn s) (afterTurn s) with
    | some i => exec i (afterTurn s)
    | none => .next (input (nextTurn s) (afterTurn s))

/-- The state whose next step dispatches the frame with these bits (log entry 15). -/
def State.withFetchWord (s : State) (nbits w : Nat) : State :=
  placeFrame (tableWordFormat nbits) (tableWordBytes nbits w) s

end Sys2Proof.Machine
end

