-- ==== Sys2Proof/Safety.lean ====
section
/-!
DEFINITION. What holds of every state of a run, in the terms the statements use: the form of the two memories, the
ring's invariant (R19), and the relations between the session and control fields that the rules state in prose.
-/

namespace Sys2Proof.Machine

/-- Both memories are in canonical form and hold no cell outside their index range (R35, R36). -/
abbrev MemOk (s : State) : Prop :=
  Mem.wf s.rb.buf = true ∧ Mem.wf s.staging = true ∧
    Mem.below s.cfg.capacity s.rb.buf = true ∧ Mem.below s.cfg.stagingSize s.staging = true

/-- The ring's invariant (R18, R19): the cursors' ranges, the tail from head and count, no buffered cell UNWRITTEN. -/
abbrev RingOk (s : State) : Prop :=
  s.rb.count ≤ s.cfg.capacity ∧
    (s.rb.head < s.cfg.capacity ∨ s.rb.head = 0) ∧
    s.rb.tail = (s.rb.head + s.rb.count) % s.cfg.capacity ∧
    ∀ k < s.rb.count, (readCell s.rb.buf ((s.rb.head + k) % s.cfg.capacity)).isSome = true

/-- The engine is inside a session's loop: past ENTRY and not yet at EXIT (R88). -/
def live (s : State) : Bool :=
  match s.pc with
  | .idle => false
  | .entry => false
  | .exit => false
  | .stopped => false
  | _ => true

/-- The engine stands at `p`. -/
abbrev atPoint (p : ControlPoint) (s : State) : Prop := s.pc = p

/-- The first `n` cells of the staging area hold a byte. -/
abbrev stagedWritten (n : Nat) (s : State) : Prop := ∀ k < n, (readCell s.staging k).isSome = true

/-- What relates the session fields to the control fields in every state of a run. -/
structure SessionOk (s : State) : Prop where
  /-- A session runs only in a configuration that passed the startup check (R127). -/
  checked : live s = true → s.cfg.cfgCheck s.inputs.caps s.inputs.timeout = none
  /-- `expectedByteCount` is in `0..FMAX` (R85). -/
  expectedInRange : live s = true → s.expectedByteCount ≤ s.cfg.fmax
  /-- `expectedByteCount = 1` throughout AwaitingInit (R50). -/
  initFrame : live s = true → s.hostInitDone = false → s.expectedByteCount = 1
  /-- `expectedByteCount = 2` in AwaitingCommand (R51). -/
  commandFrame : live s = true → s.hostInitDone = true → s.selectedCommand = none → s.expectedByteCount = 2
  /-- An active command is registered and selected after the handshake, inside the session (R23, R108). -/
  selected : ∀ op, s.selectedCommand = some op →
    live s = true ∧ s.hostInitDone = true ∧ (s.cfg.lookup op).isSome = true
  /-- The bytes a DRAIN takes are buffered (R45). -/
  drainReady : s.pc = .drain → s.expectedByteCount ≤ s.rb.count
  /-- At DISPATCH the staged frame has the length that was expected (R93). -/
  frameLength : s.pc = .dispatch → s.stagedLen = s.expectedByteCount
  /-- The current frame's cells hold bytes (R49). -/
  frameWritten : s.pc = .dispatch ∨ s.pc = .cmdWait → s.stagedLen ≤ s.cfg.fmax ∧ stagedWritten s.stagedLen s
  /-- The engine waits only for an active command (R100). -/
  waiting : s.pc = .cmdWait → s.selectedCommand.isSome = true
  /-- A returned result is outstanding only while the engine waits for it (R101, R102). -/
  returned : s.wsResult.isSome = true → s.pc = .cmdWait
  /-- No end cause is recorded in a running session (R26, R107). -/
  running : live s = true → s.endCause = none ∧ s.result = none
  /-- EXIT is reached with the cause that raised it (R107). -/
  ending : s.pc = .exit → s.endCause.isSome = true
  /-- After the engine has returned, the result is the one its cause has (R106, R110). -/
  ended : s.pc = .stopped → s.endCause.isSome = true ∧ s.result = some (endResult s.endCause)
  /-- `armed` is true exactly when entry armed the alarm (R26, R73). -/
  armedIff : live s = true → (s.armed = true ↔ s.inputs.timeout ≠ 0)
  /-- With `TIMEOUT = 0` no expiry occurs in a session: `timedOut` stays false (R78). -/
  neverTimedOut : live s = true → s.inputs.timeout = 0 → s.timedOut = false

/-- The buffered bytes, oldest first (R19), from position `k` past the head. -/
def bufferedFrom (s : State) : Nat → Nat → List (Option Byte)
  | 0, _ => []
  | n + 1, k => readCell s.rb.buf ((s.rb.head + k) % s.cfg.capacity) :: bufferedFrom s n (k + 1)

/-- The buffered bytes, oldest first: the queue the ring stands for (R61, R67). -/
def buffered (s : State) : List (Option Byte) := bufferedFrom s s.rb.count 0

/-- The first `n` staging cells: the frame a DRAIN of `n` bytes delivered (R37). -/
def frameCells (s : State) : Nat → Nat → List (Option Byte)
  | 0, _ => []
  | n + 1, k => readCell s.staging k :: frameCells s n (k + 1)

/-- The current frame `staging[0..stagedLen-1]` (R49). -/
def currentFrame (s : State) : List (Option Byte) := frameCells s s.stagedLen 0

/-- The faults that the rules never reach (R113). -/
def unreachableFault : Fault → Bool
  | .drainUnderflow => true
  | .index => true
  | .unwrittenRead => true
  | .requestRange => false
  | .contract => false

/-- The phase transitions of R105, and the caller's start of a new session (R126). -/
def phaseMayBecome : Phase → Phase → Bool
  | .notStarted, .notStarted => true
  | .notStarted, .awaitingInit => true
  | .notStarted, .sessionEnded => true
  | .awaitingInit, .awaitingInit => true
  | .awaitingInit, .awaitingCommand => true
  | .awaitingInit, .sessionEnded => true
  | .awaitingCommand, .awaitingCommand => true
  | .awaitingCommand, .executingCommand => true
  | .awaitingCommand, .sessionEnded => true
  | .executingCommand, .executingCommand => true
  | .executingCommand, .awaitingCommand => true
  | .sessionEnded, .sessionEnded => true
  | .sessionEnded, .notStarted => true
  | _, _ => false

/-- The events a work step's effects emit, in order (R82, R118). -/
def eventsOf : List Effect → List Event
  | [] => []
  | .sendByte b :: es => .tx b :: eventsOf es
  | .feedWatchdog :: es => .wdgFeed :: eventsOf es
  | .flash _ :: es => eventsOf es
  | .log m :: es => .log m :: eventsOf es
  | .request _ :: es => eventsOf es
  | .setPriv _ :: es => eventsOf es
  | .breach _ :: es => eventsOf es

/-- The frame size after a work step's effects: the last REQUEST's, else the size before (R84, D13). -/
def requestedSize : Nat → List Effect → Nat
  | n, [] => n
  | _, .request m :: es => requestedSize m es
  | n, _ :: es => requestedSize n es

/-- `cmd.priv` after a work step's effects (R30, R82). -/
def privAfter : List Byte → List Effect → List Byte
  | v, [] => v
  | _, .setPriv w :: es => privAfter w es
  | v, _ :: es => privAfter v es

/-- An effect is within the work step's contract (R82 to R84): no breach, a REQUEST in range, the log sink called only
when it is present. -/
def withinContract (p : Params) (logSink : Bool) : Effect → Bool
  | .sendByte _ => true
  | .feedWatchdog => true
  | .flash _ => true
  | .log _ => logSink
  | .request n => n ≤ p.fmax
  | .setPriv _ => true
  | .breach _ => false

/-- All effects of a work step are within its contract in the state `s`. -/
def keepsContract (s : State) (es : List Effect) : Bool :=
  es.all (withinContract s.cfg s.inputs.caps.log)

/-- A run of steps is safe as long as no fault is marked and none is answered. -/
def safe (s : State) : Prop := s.fault = none

/-- A run ends at STOPPED, and a faulted state is never final (R124, R14). -/
def isFinal (s : State) : Bool := s.pc == .stopped && s.fault == none

/-- The observation of a run (R124). The ring's contents are its buffered bytes, oldest first (R19): a cell outside the
buffered window is unobservable (R65). -/
structure Observation where
  hist : List Event
  endCause : Option EndCause
  result : Option Bool
  ie : Bool
  hostInitDone : Bool
  ring : List (Option Byte)
  staging : Mem
deriving DecidableEq, Repr

/-- What a run shows in the state it ends in (R124). -/
def observe (s : State) : Observation :=
  ⟨s.hist, s.endCause, s.result, s.ie, s.hostInitDone, buffered s, s.staging⟩

/-- The bytes the host sees (R124). -/
def sentBytes : List Event → List Byte
  | [] => []
  | .tx b :: es => b :: sentBytes es
  | .irqDisable :: es => sentBytes es
  | .irqEnable :: es => sentBytes es
  | .wdgFeed :: es => sentBytes es
  | .getTime _ :: es => sentBytes es
  | .setAlarm _ :: es => sentBytes es
  | .alarmEnable :: es => sentBytes es
  | .alarmDisable :: es => sentBytes es
  | .log _ :: es => sentBytes es
  | .workStep _ :: es => sentBytes es
  | .wsRet _ :: es => sentBytes es
  | .sessionRet _ :: es => sentBytes es

end Sys2Proof.Machine
end

