-- ==== Sys2Proof/Certificates/Slice0/Obligations.lean ====
section
/-!
DEFINITION. The statements for the provers, one `def Obligations.<Name> : Prop` each. A statement that gives the next
state as an equation gives the operation's result and its frame at once: every field not written in it is unchanged.
-/

open Sys2Proof Sys2Proof.Machine

/-! ## The step -/

/-- 10_state.md section 4, 44_engine.md section 1: a step of an unfaulted state takes the first listed turn and runs
exactly the operation fetched for it, or takes that turn's input. The list of turns, and the free value that follows it,
are the model's own (log entry 5). -/
def Obligations.StepRunsTheFetchedOperation : Prop :=
  ∀ s : State, s.fault = none →
    (∀ i, fetch (nextTurn s) (afterTurn s) = some i → step s = exec i (afterTurn s)) ∧
    (fetch (nextTurn s) (afterTurn s) = none → step s = .next (input (nextTurn s) (afterTurn s))) ∧
    (∀ t ts, s.turns = t :: ts → nextTurn s = t ∧ afterTurn s = { s with turns := ts }) ∧
    (s.turns = [] → afterTurn s = { s with turnNo := s.turnNo + 1 })

/-- 30_encoding.md section 5: at DISPATCH an engine turn runs the token that the decoder reads from the staged frame,
whose format the phase chooses. -/
def Obligations.StepRunsTheStagedToken : Prop :=
  ∀ (s : State) (f : Format) (bs rest : List Byte) (i : Instr),
    s.fault = none → nextTurn s = .engine → s.pc = .dispatch →
    (f = match phase s with
      | .awaitingInit => .w1
      | .awaitingCommand => .w2
      | _ => .w3 s.stagedLen) →
    stagingBytes s f.size 0 = .ok bs → decode s.cfg f bs = .ok (i, rest) →
    step s = exec i (afterTurn s)

/-- 10_state.md section 4 (R24), 44_engine.md sections 1 and 5 (R101, R102), R112, R125: an engine turn runs the
operation of its control point; at IDLE and STOPPED, and at CMD_WAIT before the work step returns, the engine takes no
step. That the result waits in `wsResult`, and chooses between WS_DONE and WS_CONTINUE, is the model's hand-over (log
entry 8); that a turn with no operation passes, taken off and no more, is the model's (log entry 5). -/
def Obligations.EngineFollowsItsControlPoint : Prop :=
  ∀ s : State, s.fault = none → nextTurn s = .engine →
    step s = match s.pc with
      | .idle => .next (afterTurn s)
      | .entry => exec .entry (afterTurn s)
      | .guard => exec .guard (afterTurn s)
      | .wdg => exec .wdg (afterTurn s)
      | .avail => exec .avail (afterTurn s)
      | .drain => exec (.drain s.expectedByteCount) (afterTurn s)
      | .dispatch => exec ((stagedToken s).getD .dispatch) (afterTurn s)
      | .cmdWait =>
        match s.wsResult with
        | some .done => exec .wsDone (afterTurn s)
        | some .cont => exec .wsContinue (afterTurn s)
        | none => .next (afterTurn s)
      | .exit => exec (.exit s.endCause) (afterTurn s)
      | .stopped => .next (afterTurn s)

/-- 00_scope.md section 4 (R11), 60_exceptions.md section 6 (R123), 70_reset_and_hazards.md sections 1 and 2 (R128,
R130), 42_timer.md (R78): what a turn of each other agent, of the host and of the platform does. The model's own: that a
turn whose agent has nothing to do passes (log entry 5); that a work step may also be spread over several turns (log
entry 8); which inputs the platform has, and that it sets `IE` and the alarm device at IDLE and STOPPED only (log entry
16); that an expiry turn passes where the callback is not installed, and at IDLE is left to R75 (log entry 24). -/
def Obligations.OtherAgentsTakeTheirTurns : Prop :=
  ∀ s : State, s.fault = none →
    (nextTurn s = .rx → ∀ b bs, s.uartPending = b :: bs → step s = exec (.push b) (afterTurn s)) ∧
    (nextTurn s = .rx → s.uartPending = [] → step s = .next (afterTurn s)) ∧
    (∀ d, nextTurn s = .tick d → step s = exec (.tick d) (afterTurn s)) ∧
    (nextTurn s = .expire → s.pc = .idle ∨ s.inputs.timeout ≠ 0 → step s = exec .alarmExpire (afterTurn s)) ∧
    (nextTurn s = .expire → s.pc ≠ .idle → s.inputs.timeout = 0 → step s = .next (afterTurn s)) ∧
    (∀ es r op, nextTurn s = .work es r → s.selectedCommand = some op →
      step s = exec (.workStep op es r) (afterTurn s)) ∧
    (∀ es r, nextTurn s = .work es r → s.selectedCommand = none → step s = .next (afterTurn s)) ∧
    (∀ b, nextTurn s = .workSends b → s.pc = .cmdWait → s.wsResult = none →
      step s = exec (.txData b) (afterTurn s)) ∧
    (∀ n, nextTurn s = .workRequests n → s.pc = .cmdWait → s.wsResult = none →
      step s = exec (.request n) (afterTurn s)) ∧
    (∀ b n, nextTurn s = .workSends b ∨ nextTurn s = .workRequests n → s.pc ≠ .cmdWait ∨ s.wsResult ≠ none →
      step s = .next (afterTurn s)) ∧
    (∀ c t x, nextTurn s = .start c t x → step s = exec (.start c t x) (afterTurn s)) ∧
    (∀ bs, nextTurn s = .hostSends bs →
      step s = .next { afterTurn s with uartPending := s.uartPending ++ bs }) ∧
    (nextTurn s = .platformEnables → step s = .next { afterTurn s with ie := true }) ∧
    (∀ b, nextTurn s = .platformSetsGate b →
      step s = .next (if s.pc = .idle ∨ s.pc = .stopped then { afterTurn s with ie := b } else afterTurn s)) ∧
    (∀ d e, nextTurn s = .platformSetsAlarm d e →
      step s = .next (if s.pc = .idle ∨ s.pc = .stopped then
        { afterTurn s with alarm := { deadline := d, enabled := e } } else afterTurn s))

/-- 10_state.md section 6 (R32), R14: a raised fault marks the state, and no later step clears the mark. That the step
after the mark answers the fault is the model's choice (log entry 10). -/
def Obligations.FaultedStateTakesNoStep : Prop :=
  (∀ (r : Fault) (s : State), (Ran.raised r s).settle = .next { s with fault := some r }) ∧
    ∀ (s : State) (r : Fault), s.fault = some r → step s = .fault r

/-- 30_encoding.md: a few frames written out bit by bit decode to their tokens under REF. -/
def Obligations.WrittenOutFramesDecode : Prop :=
  decode Params.ref .w1 [0b01111111] = .ok (.init, []) ∧
    decode Params.ref .w1 [0b10100101] = .ok (.quit, []) ∧
    decode Params.ref .w1 [0b00000000] = .ok (.noise 0b00000000, []) ∧
    decode Params.ref .w2 [0b00010001, 0b11101110] = .ok (.cmdSelect 0b00010001, []) ∧
    decode Params.ref .w2 [0b00100010, 0b11011101] = .ok (.cmdUnsupported 0b00100010, []) ∧
    decode Params.ref .w2 [0b00010001, 0b00010001] = .ok (.cmdBadsum 0b00010001 0b00010001, [])

/-! ## Encoding -/

/-- 30_encoding.md sections 1 and 2: decoding what an operation is encoded to gives it back, with every operand. -/
def Obligations.DecodeOfEncodeIsTheOperation : Prop :=
  ∀ (p : Params) (i : Instr) (f : Format) (bs rest : List Byte),
    WellFormed p i = true → formatOf i = some f → encode p i = some bs →
    decode p f (bs ++ rest) = .ok (i, rest)

/-- 30_encoding.md sections 1 and 2: whatever is decoded is well formed, has the format it was decoded in, and encodes
to the bytes it was read from. -/
def Obligations.EncodeOfDecodeIsTheFrame : Prop :=
  ∀ (p : Params) (f : Format) (bs rest : List Byte) (i : Instr),
    (∀ n, f = .w3 n → n ≤ p.fmax) → decode p f bs = .ok (i, rest) →
    WellFormed p i = true ∧ formatOf i = some f ∧ ∃ x, encode p i = some x ∧ bs = x ++ rest

/-- 30_encoding.md section 1: of the three W2 tokens exactly one matches each frame, by checksum and registry. -/
def Obligations.EveryCommandFrameIsOneToken : Prop :=
  ∀ (p : Params) (o k : Byte) (rest : List Byte),
    (k ≠ ~~~o → decode p .w2 (o :: k :: rest) = .ok (.cmdBadsum o k, rest)) ∧
    (k = ~~~o → p.lookup o = none → decode p .w2 (o :: k :: rest) = .ok (.cmdUnsupported o, rest)) ∧
    (∀ d, k = ~~~o → p.lookup o = some d → decode p .w2 (o :: k :: rest) = .ok (.cmdSelect o, rest))

/-! ## Checksum -/

/-- 41_checksum.md (R69): VALIDATE XORs every byte but the last and compares the complement with the last; the empty
frame fails; no field of the block is written. The answer stands in the model's own `output` (log entry 13). -/
def Obligations.ValidateComparesTheComplement : Prop :=
  (∀ (frame : List Byte) (s : State),
      exec (.validate frame) s = .next { s with output := some (.valid (validate frame)) }) ∧
    validate [] = false ∧
    ∀ (front : List Byte) (c : Byte),
      validate (front ++ [c]) = decide (~~~(front.foldl (fun x b => x ^^^ b) 0x00) = c)

/-- R70: the arithmetic laws of VALIDATE. -/
def Obligations.ValidateLaws : Prop :=
  (∀ (front front' : List Byte) (c : Byte), front.Perm front' →
      validate (front ++ [c]) = validate (front' ++ [c])) ∧
    (∀ o k : Byte, validate [o, k] = true ↔ o ^^^ k = 0xFF) ∧
    (∀ front : List Byte, ∃ c : Byte, validate (front ++ [c]) = true ∧
      ∀ c' : Byte, validate (front ++ [c']) = true → c' = c) ∧
    ∀ o k : Byte, validate [o, k] = true ↔ k = ~~~o

/-! ## Ring buffer -/

/-- 40_ring_buffer.md (R63): an enabled PUSH takes the first pending byte and appends it, or, with the ring full,
follows the overflow policy; before the session's RB_RESET the byte is discarded. -/
def Obligations.PushAppendsTheFirstPendingByte : Prop :=
  ∀ (b : Byte) (bs : List Byte) (s : State),
    s.uartPending = b :: bs → s.ie = true → s.pc ≠ .stopped →
    (s.rb.tail < s.cfg.capacity ∨ s.pc = .idle ∨ s.pc = .entry) →
    exec (.push b) s = .next
      (if s.pc = .idle ∨ s.pc = .entry then { s with uartPending := bs }
      else if s.rb.count < s.cfg.capacity then
        { s with
          uartPending := bs
          rb := { s.rb with
            buf := writeCell s.rb.buf s.rb.tail b
            tail := (s.rb.tail + 1) % s.cfg.capacity
            count := s.rb.count + 1 } }
      else if s.cfg.overflowPolicy = .overwriteOldest then
        { s with
          uartPending := bs
          rb := { s.rb with
            buf := writeCell s.rb.buf s.rb.tail b
            tail := (s.rb.tail + 1) % s.cfg.capacity
            head := (s.rb.tail + 1) % s.cfg.capacity
            ovf := s.rb.ovf + 1 } }
      else { s with uartPending := bs, rb := { s.rb with ovf := s.rb.ovf + 1 } })

/-- 60_exceptions.md section 4 (R115), R112: while `IE = false`, and at STOPPED, neither interrupt source takes a step:
the byte and the expiry stay pending. That an operation which is not enabled leaves the state as it is, is the model's
form of taking no step (log entry 9). -/
def Obligations.MaskedInterruptsStayPending : Prop :=
  ∀ (b : Byte) (s : State), s.ie = false ∨ s.pc = .stopped →
    exec (.push b) s = .next s ∧ exec .alarmExpire s = .next s

/-- 40_ring_buffer.md R63, 10_state.md R33: whatever PUSH does, it changes the ring, the pending bytes and at most the
fault mark, and of the ring's cells at most the one at the tail; no cell of the staging area changes. -/
def Obligations.PushWritesAtMostTheTailCell : Prop :=
  ∀ (b : Byte) (s t : State), exec (.push b) s = .next t →
    t = { s with rb := t.rb, uartPending := t.uartPending, fault := t.fault } ∧
    (∀ a, a ≠ s.rb.tail → readCell t.rb.buf a = readCell s.rb.buf a) ∧
    ∀ a, readCell t.staging a = readCell s.staging a

/-- 40_ring_buffer.md (R64): DRAIN delivers the `n` oldest bytes to `staging[0..n-1]` in arrival order inside one
critical section and leaves every other cell; with fewer than `n` bytes buffered it faults; away from its control point
it takes no step (log entry 9). -/
def Obligations.DrainDeliversTheOldestBytes : Prop :=
  ∀ (n : Nat) (s : State),
    (s.pc = .drain → n ≤ s.rb.count → n ≤ s.cfg.stagingSize → 0 < s.cfg.capacity → RingOk s →
      ∃ t, exec (.drain n) s = .next t ∧
        t = { s with
          staging := t.staging
          stagedLen := n
          rb := { s.rb with head := (s.rb.head + n) % s.cfg.capacity, count := s.rb.count - n }
          ie := true
          hist := s.hist ++ [.irqDisable, .irqEnable]
          pc := .dispatch } ∧
        (∀ k < n, readCell t.staging k = readCell s.rb.buf ((s.rb.head + k) % s.cfg.capacity)) ∧
        ∀ a, n ≤ a → readCell t.staging a = readCell s.staging a) ∧
    (s.pc = .drain → s.rb.count < n →
      exec (.drain n) s =
        .next { s with ie := false, hist := s.hist ++ [.irqDisable], fault := some .drainUnderflow }) ∧
    (s.pc ≠ .drain → exec (.drain n) s = .next s)

/-- R65: RB_RESET empties the ring, clears the overflow counter and marks every ring cell UNWRITTEN. -/
def Obligations.RbResetEmptiesTheRing : Prop :=
  ∀ s : State,
    exec .rbReset s = .next { s with rb := { buf := [], head := 0, tail := 0, count := 0, ovf := 0 } } ∧
    ∀ t, exec .rbReset s = .next t → ∀ i b, ringRead t i ≠ .ok b

/-- 40_ring_buffer.md (R61, R63, R64, R67, R68): the ring is a first-in first-out queue: PUSH appends the byte at the
newest end while there is room; a full ring loses the oldest byte or the new one, by policy; DRAIN takes the `n` oldest
bytes, in order, into the current frame. -/
def Obligations.RingIsAQueue : Prop :=
  ∀ (s : State), RingOk s → 0 < s.cfg.capacity → s.pc ≠ .idle → s.pc ≠ .entry →
    (∀ (b : Byte) (t : State), pushEnabled b s = true → exec (.push b) s = .next t →
      (s.rb.count < s.cfg.capacity → buffered t = buffered s ++ [some b]) ∧
      (s.rb.count = s.cfg.capacity → s.cfg.overflowPolicy = .overwriteOldest →
        buffered t = (buffered s).tail ++ [some b] ∧ t.rb.ovf = s.rb.ovf + 1) ∧
      (s.rb.count = s.cfg.capacity → s.cfg.overflowPolicy = .dropNewest →
        buffered t = buffered s ∧ t.rb.ovf = s.rb.ovf + 1)) ∧
    (∀ (n : Nat) (t : State), s.pc = .drain → n ≤ s.rb.count → n ≤ s.cfg.stagingSize →
      exec (.drain n) s = .next t →
      currentFrame t = (buffered s).take n ∧ buffered t = (buffered s).drop n)

/-! ## Timer -/

/-- R73: ALARM_ARM with the operand `TIMEOUT`. -/
def Obligations.AlarmArmSetsTheDeadline : Prop :=
  ∀ (timeout : Nat) (s : State),
    exec (.alarmArm timeout) s = .next
      (if timeout = 0 then { s with armed := false }
      else
        { s with
          hist := s.hist ++ [.getTime s.now, .setAlarm (s.now + timeout), .alarmEnable]
          alarm := { deadline := some (s.now + timeout), enabled := true }
          armed := true })

/-- R74: TICK(d) advances the clock and nothing else, whatever the gate and the control point are. -/
def Obligations.TickAdvancesTheClock : Prop :=
  ∀ (d : Nat) (s : State), exec (.tick d) s = .next { s with now := s.now + d }

/-- 42_timer.md (R75): ALARM_EXPIRE sets `timedOut` and disables the alarm exactly when the alarm is enabled, its
deadline is reached, the gate is open and the engine has not stopped; otherwise it takes no step (log entry 9). -/
def Obligations.AlarmExpiresOnceTheDeadlineIsReached : Prop :=
  (∀ (s : State) (dl : Nat), s.alarm.enabled = true → s.alarm.deadline = some dl → dl ≤ s.now → s.ie = true →
      s.pc ≠ .stopped →
      exec .alarmExpire s =
        .next { s with timedOut := true, alarm := { deadline := some dl, enabled := false } }) ∧
    ∀ s : State,
      (s.alarm.enabled = false ∨ s.alarm.deadline = none ∨ (∃ dl, s.alarm.deadline = some dl ∧ s.now < dl) ∨
        s.ie = false ∨ s.pc = .stopped) →
      exec .alarmExpire s = .next s

/-- 42_timer.md (R76): ALARM_DISARM disables the alarm, expired or not. -/
def Obligations.AlarmDisarmDisablesTheAlarm : Prop :=
  ∀ s : State,
    exec .alarmDisarm s =
      .next { s with hist := s.hist ++ [.alarmDisable], alarm := { s.alarm with enabled := false } }

/-! ## Registry and work steps -/

/-- 43_registry.md (R81): LOOKUP answers the registry's entry, if there is one, and writes no field of the block. The
answer stands in the model's own `output` (log entry 13); of two entries under one opcode the first counts (log entry
21). -/
def Obligations.LookupAnswersTheDescriptor : Prop :=
  ∀ (o : Byte) (s : State),
    exec (.lookup o) s = .next { s with output := some (.descriptor (s.cfg.lookup o)) } ∧
    (∀ d, s.cfg.lookup o = some d → d ∈ s.cfg.registry ∧ d.opcode = o) ∧
    (s.cfg.lookup o = none → ∀ d ∈ s.cfg.registry, d.opcode ≠ o)

/-- 43_registry.md (R84): REQUEST sets the next frame's size when it is at most `FMAX = min(C, S)` and faults when it is
larger. -/
def Obligations.RequestSetsTheFrameSize : Prop :=
  ∀ (n : Nat) (s : State),
    (n ≤ min s.cfg.capacity s.cfg.stagingSize →
      exec (.request n) s = .next { s with expectedByteCount := n }) ∧
    (min s.cfg.capacity s.cfg.stagingSize < n →
      exec (.request n) s = .next { s with fault := some .requestRange })

/-- 43_registry.md (R82, R83, R84): a work step that keeps its contract emits its events in order, leaves the size of
its last REQUEST and its private state, returns its result, and changes nothing else. The field `wsResult`, where the
result waits for the engine, is the model's own (log entry 8), and so is the byte sequence `cmd.priv` (log entry 7). -/
def Obligations.WorkStepMakesItsEffects : Prop :=
  ∀ (op : Byte) (es : List Effect) (r : WsResult) (s : State),
    s.pc = .cmdWait → s.selectedCommand = some op → s.wsResult = none → (s.cfg.lookup op).isSome = true →
    s.stagedLen ≤ s.cfg.stagingSize → stagedWritten s.stagedLen s → keepsContract s es = true →
    exec (.workStep op es r) s = .next
      { s with
        hist := s.hist ++ eventsOf es
        expectedByteCount := requestedSize s.expectedByteCount es
        cmdPriv := privAfter s.cmdPriv es
        wsResult := some r }

/-- 43_registry.md (R86), 60_exceptions.md section 3: a work step that breaches its contract, after effects that keep
it, is `Fault(CONTRACT)`, and one that requests more than `FMAX` is `Fault(REQUEST_RANGE)`; it returns no result. That
the effects come one by one, the breach among them, is the model's form of the oracle (log entry 6). -/
def Obligations.WorkStepBreachIsAFault : Prop :=
  ∀ (op : Byte) (es es' : List Effect) (e : Effect) (r : WsResult) (s : State),
    s.pc = .cmdWait → s.selectedCommand = some op → s.wsResult = none → (s.cfg.lookup op).isSome = true →
    s.stagedLen ≤ s.cfg.stagingSize → stagedWritten s.stagedLen s → keepsContract s es = true →
    ((∃ f, e = .breach f) →
      ∃ t, exec (.workStep op (es ++ e :: es') r) s = .next t ∧ t.fault = some .contract ∧ t.wsResult = none) ∧
    ((∃ n, e = .request n ∧ s.cfg.fmax < n) →
      ∃ t, exec (.workStep op (es ++ e :: es') r) s = .next t ∧ t.fault = some .requestRange ∧ t.wsResult = none)

/-- 43_registry.md (R82): whatever effects the command unit chooses, its work step writes only `expectedByteCount`,
`cmd.priv`, the history (which it only extends), its result and the fault mark; so no cell of either memory changes. -/
def Obligations.WorkStepTouchesNothingElse : Prop :=
  ∀ (op : Byte) (es : List Effect) (r : WsResult) (s t : State), exec (.workStep op es r) s = .next t →
    t = { s with
      expectedByteCount := t.expectedByteCount
      cmdPriv := t.cmdPriv
      hist := t.hist
      wsResult := t.wsResult
      fault := t.fault } ∧
    (∃ es', t.hist = s.hist ++ es') ∧
    (∀ a, readCell t.rb.buf a = readCell s.rb.buf a) ∧ ∀ a, readCell t.staging a = readCell s.staging a

/-- 43_registry.md (R82): a work step runs only while the engine waits for it, for the selected command, once; else it
takes no step (log entry 9). -/
def Obligations.WorkStepRunsOnlyWhenCalled : Prop :=
  ∀ (op : Byte) (es : List Effect) (r : WsResult) (s : State),
    (s.pc ≠ .cmdWait ∨ s.selectedCommand ≠ some op ∨ s.wsResult ≠ none) →
    exec (.workStep op es r) s = .next s

/-! ## Engine -/

/-- R89: GUARD ends the session with TIMEOUT exactly when the alarm has expired before the handshake. -/
def Obligations.GuardTestsTheTimeout : Prop :=
  ∀ s : State, s.pc = .guard →
    exec .guard s = .next
      (if s.timedOut = true ∧ s.hostInitDone = false then { s with endCause := some .timeout, pc := .exit }
      else { s with pc := .wdg })

/-- 44_engine.md section 2 (R90): WDG feeds the watchdog once and goes on to AVAIL. -/
def Obligations.WdgFeedsOnce : Prop :=
  ∀ s : State, s.pc = .wdg → exec .wdg s = .next { s with hist := s.hist ++ [.wdgFeed], pc := .avail }

/-- R91: AVAIL spins while fewer than `expectedByteCount` bytes are buffered, and else goes on to DRAIN. -/
def Obligations.AvailComparesTheByteCount : Prop :=
  ∀ s : State, s.pc = .avail →
    exec .avail s = .next { s with pc := if s.rb.count < s.expectedByteCount then .guard else .drain }

/-- R93: DISPATCH runs exactly one handler, the one its phase and the staged bytes select: INIT before QUIT, the
checksum before the registry. -/
def Obligations.DispatchRunsOneHandler : Prop :=
  ∀ s : State, s.pc = .dispatch →
    (s.hostInitDone = false → ∀ b, stagingRead s 0 = .ok b →
      exec .dispatch s =
        if b = s.cfg.initByte then exec .init s
        else if b = s.cfg.quitByte then exec .quit s
        else exec (.noise b) s) ∧
    (s.hostInitDone = true → s.selectedCommand = none → ∀ o k, stagingRead s 0 = .ok o → stagingRead s 1 = .ok k →
      exec .dispatch s =
        if validate [o, k] = false then exec (.cmdBadsum o k) s
        else if s.cfg.lookup o = none then exec (.cmdUnsupported o) s
        else exec (.cmdSelect o) s) ∧
    (s.hostInitDone = true → ∀ op, s.selectedCommand = some op → exec .dispatch s = exec (.wsCall op) s)

/-- 44_engine.md section 2: in every state of a run, DISPATCH completes: it goes to GUARD, EXIT or CMD_WAIT and raises
no fault. -/
def Obligations.DispatchCompletes : Prop :=
  ∀ s : State, SessionOk s → s.pc = .dispatch →
    ∃ t, exec .dispatch s = .next t ∧ t.fault = s.fault ∧
      (t.pc = .guard ∨ t.pc = .exit ∨ t.pc = .cmdWait) ∧ t.rb = s.rb ∧ t.staging = s.staging

/-- 44_engine.md section 3 (R94): INIT completes the handshake, whether or not the alarm has expired. -/
def Obligations.InitCompletesTheHandshake : Prop :=
  ∀ s : State, s.pc = .dispatch → s.hostInitDone = false → genericFrame ≤ s.cfg.fmax →
    exec .init s = .next
      { s with
        hostInitDone := true
        expectedByteCount := 2
        hist := s.hist ++ [.tx s.cfg.ackByte]
        pc := .guard }

/-- 44_engine.md section 3 (R95), R107: QUIT raises its end cause and does nothing else. -/
def Obligations.QuitEndsTheSession : Prop :=
  ∀ s : State, s.pc = .dispatch → s.hostInitDone = false → s.cfg.quitByte ≠ s.cfg.initByte →
    exec .quit s = .next { s with endCause := some .quit, pc := .exit }

/-- 44_engine.md section 3 (R96): NOISE is discarded and one more byte is requested. -/
def Obligations.NoiseIsDiscarded : Prop :=
  ∀ (b : Byte) (s : State), s.pc = .dispatch → s.hostInitDone = false → b ≠ s.cfg.initByte → b ≠ s.cfg.quitByte →
    1 ≤ s.cfg.fmax →
    exec (.noise b) s = .next { s with expectedByteCount := 1, pc := .guard }

/-- 44_engine.md section 4 (R97): a failed checksum ends the session, with a log record if logging is enabled, and
sends nothing. -/
def Obligations.BadChecksumEndsTheSession : Prop :=
  ∀ (o k : Byte) (s : State), s.pc = .dispatch → s.hostInitDone = true → s.selectedCommand = none → k ≠ ~~~o →
    exec (.cmdBadsum o k) s = .next
      { s with
        hist := if s.cfg.logEnabled then s.hist ++ [.log .checksumFail] else s.hist
        endCause := some .checksumFail
        pc := .exit }

/-- 44_engine.md section 4 (R98): an unregistered opcode is answered with one NACK and ends the session. -/
def Obligations.UnsupportedOpcodeIsNacked : Prop :=
  ∀ (o : Byte) (s : State), s.pc = .dispatch → s.hostInitDone = true → s.selectedCommand = none →
    s.cfg.lookup o = none →
    exec (.cmdUnsupported o) s = .next
      { s with hist := s.hist ++ [.tx s.cfg.nackByte], endCause := some .unsupported, pc := .exit }

/-- 44_engine.md section 4 (R99): a registered opcode is selected and its first sub-frame requested; nothing is sent. -/
def Obligations.SelectionRequestsTheSubframe : Prop :=
  ∀ (o : Byte) (d : Descriptor) (s : State), s.pc = .dispatch → s.hostInitDone = true → s.selectedCommand = none →
    s.cfg.lookup o = some d → d.extraFrameBytes ≤ s.cfg.fmax →
    exec (.cmdSelect o) s = .next
      { s with selectedCommand := some o, expectedByteCount := d.extraFrameBytes, pc := .guard }

/-- 44_engine.md section 5 (R100): a sub-frame, whatever its bytes, calls the active command's work step. The clearing
of `wsResult` is the model's own hand-over (log entry 8). -/
def Obligations.SubframeCallsTheWorkStep : Prop :=
  ∀ (op : Byte) (bs : List Byte) (s : State), s.pc = .dispatch → s.hostInitDone = true →
    s.selectedCommand = some op →
    exec (.subframe bs) s =
        .next { s with hist := s.hist ++ [.workStep op], wsResult := none, pc := .cmdWait } ∧
      exec (.wsCall op) s =
        .next { s with hist := s.hist ++ [.workStep op], wsResult := none, pc := .cmdWait }

/-- 44_engine.md section 5 (R101, R102): `Done` clears the active command and requests a selection frame, overriding
any request of the step; `Continue` leaves the command active and the frame size as the step left it. The taking of
`wsResult` is the model's own hand-over (log entry 8). -/
def Obligations.WorkStepResultReturnsToTheLoop : Prop :=
  ∀ s : State, s.pc = .cmdWait →
    (s.wsResult = some .done → genericFrame ≤ s.cfg.fmax →
      exec .wsDone s = .next
        { s with
          hist := s.hist ++ [.wsRet .done]
          wsResult := none
          selectedCommand := none
          expectedByteCount := 2
          pc := .guard }) ∧
    (s.wsResult = some .cont →
      exec .wsContinue s = .next { s with hist := s.hist ++ [.wsRet .cont], wsResult := none, pc := .guard })

/-- 30_encoding.md section 5 (R56), 44_engine.md section 6 (R104): a token takes no step outside DISPATCH or outside
its phase; in particular INIT and QUIT do nothing after the handshake. Taking no step is leaving the state as it is (log
entry 9). -/
def Obligations.TokensActOnlyInTheirPhase : Prop :=
  ∀ (s : State) (b o k op : Byte) (bs : List Byte),
    (s.pc ≠ .dispatch ∨ s.hostInitDone = true →
      exec .init s = .next s ∧ exec .quit s = .next s ∧ exec (.noise b) s = .next s) ∧
    (s.pc ≠ .dispatch ∨ s.hostInitDone = false ∨ s.selectedCommand.isSome = true →
      exec (.cmdBadsum o k) s = .next s ∧ exec (.cmdUnsupported o) s = .next s ∧
        exec (.cmdSelect o) s = .next s) ∧
    (s.pc ≠ .dispatch ∨ s.hostInitDone = false ∨ s.selectedCommand = none →
      exec (.subframe bs) s = .next s ∧ exec (.wsCall op) s = .next s)

/-- 30_encoding.md section 2 (R53), R119: each byte the block sends is one `tx` event and nothing else. -/
def Obligations.EachSentByteIsOneEvent : Prop :=
  ∀ (b : Byte) (s : State),
    exec .txAck s = .next { s with hist := s.hist ++ [.tx s.cfg.ackByte] } ∧
    exec .txNack s = .next { s with hist := s.hist ++ [.tx s.cfg.nackByte] } ∧
    exec (.txData b) s = .next { s with hist := s.hist ++ [.tx b] }

/-! ## Session start and end -/

/-- 70_reset_and_hazards.md section 1 (R126), R10: the caller starts the engine from IDLE or STOPPED; the inputs are
held and the engine stands at ENTRY; equal sentinels are refused, which the model does at START (log entry 11). -/
def Obligations.StartHoldsTheInputs : Prop :=
  ∀ (caps : Caps) (timeout chipId : Nat) (s : State), s.pc = .idle ∨ s.pc = .stopped →
    (s.cfg.quitByte ≠ s.cfg.initByte →
      exec (.start caps timeout chipId) s =
        .next { s with inputs := { caps := caps, timeout := timeout, chipId := chipId }, pc := .entry }) ∧
    (s.cfg.quitByte = s.cfg.initByte → exec (.start caps timeout chipId) s = .refused .sentinelClash)

/-- 70_reset_and_hazards.md section 1 (R126): ENTRY with a configuration that passes the check starts a fresh session,
every block field written. `wsResult` is the model's own field (log entry 8). -/
def Obligations.EntryStartsAFreshSession : Prop :=
  ∀ s : State, s.pc = .entry → s.cfg.cfgCheck s.inputs.caps s.inputs.timeout = none →
    exec .entry s = .next
      { s with
        rb := { buf := [], head := 0, tail := 0, count := 0, ovf := 0 }
        hostInitDone := false
        timedOut := false
        expectedByteCount := 1
        staging := []
        stagedLen := 0
        selectedCommand := none
        pc := .guard
        endCause := none
        result := none
        armed := decide (s.inputs.timeout ≠ 0)
        alarm := if s.inputs.timeout = 0 then s.alarm
          else { deadline := some (s.now + s.inputs.timeout), enabled := true }
        hist := if s.inputs.timeout = 0 then []
          else [.getTime s.now, .setAlarm (s.now + s.inputs.timeout), .alarmEnable]
        fault := none
        wsResult := none }

/-- 70_reset_and_hazards.md section 1 (R126): ENTRY with a configuration error raises that cause; the ring is not reset,
the alarm is not armed and the gate is not written. `wsResult` is the model's own field (log entry 8); the fields the
rule does not write keep their values (log entry 23). -/
def Obligations.EntryRaisesTheConfigurationError : Prop :=
  ∀ (c : EndCause) (s : State), s.pc = .entry → s.cfg.cfgCheck s.inputs.caps s.inputs.timeout = some c →
    exec .entry s = .next
      { s with
        hist := []
        fault := none
        armed := false
        result := none
        endCause := some c
        wsResult := none
        pc := .exit }

/-- 70_reset_and_hazards.md section 1 (R127): CFG_CHECK answers CONFIG_CAPS if a required capability is absent, else CONFIG_BOUND if a frame bound fails,
else nothing; it writes no field of the block. The answer stands in the model's own `output` (log entry 13). -/
def Obligations.CfgCheckTestsCapabilitiesFirst : Prop :=
  ∀ (caps : Caps) (timeout : Nat) (s : State),
    exec (.cfgCheck caps timeout) s =
      .next { s with output := some (.config (s.cfg.cfgCheck caps timeout)) } ∧
    ((caps.tx = false ∨ caps.irqGate = false ∨ caps.wdg = false ∨ caps.flash = false ∨
        (timeout ≠ 0 ∧ caps.timer = false) ∨ (s.cfg.logEnabled = true ∧ caps.log = false)) →
      s.cfg.cfgCheck caps timeout = some .configCaps) ∧
    (caps.tx = true → caps.irqGate = true → caps.wdg = true → caps.flash = true →
      (timeout ≠ 0 → caps.timer = true) → (s.cfg.logEnabled = true → caps.log = true) →
      ((min s.cfg.capacity s.cfg.stagingSize < 2 ∨
          ∃ o d, s.cfg.lookup o = some d ∧ min s.cfg.capacity s.cfg.stagingSize < d.extraFrameBytes) →
        s.cfg.cfgCheck caps timeout = some .configBound) ∧
      (2 ≤ min s.cfg.capacity s.cfg.stagingSize →
        (∀ o d, s.cfg.lookup o = some d → d.extraFrameBytes ≤ min s.cfg.capacity s.cfg.stagingSize) →
        s.cfg.cfgCheck caps timeout = none))

/-- R110, R76: EXIT disarms the alarm if armed, disables interrupts last if the gate is present, returns the cause's
Boolean and stops; it neither reads nor flushes the ring. -/
def Obligations.ExitDisablesInterruptsLast : Prop :=
  ∀ (c : Option EndCause) (s : State), s.pc = .exit →
    exec (.exit c) s = .next
      { s with
        alarm := { s.alarm with enabled := if s.armed then false else s.alarm.enabled }
        ie := if s.inputs.caps.irqGate then false else s.ie
        hist := s.hist ++ (if s.armed then [.alarmDisable] else []) ++
          (if s.inputs.caps.irqGate then [.irqDisable] else []) ++
          [.sessionRet (decide (c = some .quit ∨ c = some .timeout))]
        result := some (decide (c = some .quit ∨ c = some .timeout))
        pc := .stopped }

/-! ## Invariants and whole-machine rules -/

/-- 10_state.md section 8 (R34): the state before the first start, under any parameters, stands at IDLE with no event
and no fault, and meets the invariants. The other fields' values are the model's (log entries 1 to 5, 7, 8, 13). -/
def Obligations.ResetMeetsTheInvariants : Prop :=
  ∀ p : Params,
    (State.resetWith p).pc = .idle ∧ (State.resetWith p).hist = [] ∧ (State.resetWith p).fault = none ∧
    MemOk (State.resetWith p) ∧ RingOk (State.resetWith p) ∧ SessionOk (State.resetWith p)

/-- 20_memory.md section 1 (R35, R36): every step keeps both memories in canonical form and inside their index range. -/
def Obligations.EveryStepKeepsTheMemoryForm : Prop :=
  ∀ s t : State, MemOk s → step s = .next t → MemOk t

/-- 10_state.md section 2 (R18, R19): every step keeps the ring's invariant. -/
def Obligations.EveryStepKeepsTheRingInvariant : Prop :=
  ∀ s t : State, RingOk s → step s = .next t → RingOk t

/-- 10_state.md, 42_timer.md, 43_registry.md, 44_engine.md (R21, R23, R26, R50, R51, R78, R85): every step keeps the relations between
the session and the control fields. -/
def Obligations.EveryStepKeepsTheSessionInvariant : Prop :=
  ∀ s t : State, RingOk s → SessionOk s → step s = .next t → SessionOk t

/-- 60_exceptions.md section 3 (R113): in every state of a run no step raises DRAIN_UNDERFLOW, INDEX or UNWRITTEN_READ.
A ring of capacity 0 is left out: PUSH at EXIT after its CONFIG_BOUND forms an index (log entry 19). -/
def Obligations.RulesNeverReachTheModelFaults : Prop :=
  ∀ (s t : State) (r : Fault), RingOk s → SessionOk s → 0 < s.cfg.capacity → step s = .next t →
    t.fault = some r → unreachableFault r = false

/-- 44_engine.md section 6 (R105), R126: the phase changes only as R105 allows, and from SessionEnded by a new START. -/
def Obligations.PhaseMovesAsAllowed : Prop :=
  ∀ s t : State, SessionOk s → step s = .next t → phaseMayBecome (phase s) (phase t) = true

/-- 10_state.md section 3 (R21): `hostInitDone` becomes true only when a staged byte equal to `INIT_BYTE` is dispatched
in AwaitingInit, and it is cleared only by ENTRY. -/
def Obligations.HandshakeChangesOnlyByInitAndEntry : Prop :=
  ∀ s t : State, step s = .next t →
    (s.hostInitDone = false → t.hostInitDone = true →
      s.pc = .dispatch ∧ phase s = .awaitingInit ∧ stagingRead s 0 = .ok s.cfg.initByte) ∧
    (s.hostInitDone = true → t.hostInitDone = false → s.pc = .entry)

/-- 10_state.md section 3 (R22), 42_timer.md (R78): `timedOut` becomes true only at an enabled expiry, never with
`TIMEOUT = 0` once the caller has started the engine, and is cleared only by ENTRY. That an expiry at IDLE, where no
`TIMEOUT` exists yet, is left to R75 is the model's choice (log entry 24). -/
def Obligations.TimedOutChangesOnlyByExpiryAndEntry : Prop :=
  ∀ s t : State, step s = .next t →
    (s.timedOut = false → t.timedOut = true →
      nextTurn s = .expire ∧ expireEnabled s = true ∧ (s.pc = .idle ∨ s.inputs.timeout ≠ 0)) ∧
    (s.timedOut = true → t.timedOut = false → s.pc = .entry)

/-- 60_exceptions.md section 1 (R108): no step ends a session while a command is active. -/
def Obligations.NoEndWhileACommandIsActive : Prop :=
  ∀ s t : State, SessionOk s → step s = .next t → t.pc = .exit → s.pc ≠ .exit → s.selectedCommand = none

/-- 10_state.md section 1 (R16), R126: no step changes the parameters, and the start inputs change only by a START from
IDLE or STOPPED. -/
def Obligations.ConfigurationIsFixedForASession : Prop :=
  ∀ s t : State, step s = .next t →
    t.cfg = s.cfg ∧ (t.inputs ≠ s.inputs → (s.pc = .idle ∨ s.pc = .stopped) ∧ t.pc = .entry)

/-- 44_engine.md section 6 (R103): in ExecutingCommand the engine never interprets the sub-frame: with any other bytes
staged, DISPATCH does the same. -/
def Obligations.SubframesAreOpaqueToTheEngine : Prop :=
  ∀ (s t : State) (m : Mem), s.pc = .dispatch → phase s = .executingCommand →
    exec .dispatch s = .next t → exec .dispatch { s with staging := m } = .next { t with staging := m }

/-- 10_state.md section 6 (R31): the history is only appended to, but for ENTRY, which starts it anew. -/
def Obligations.HistoryOnlyGrows : Prop :=
  ∀ s t : State, step s = .next t → s.pc ≠ .entry → ∃ es, t.hist = s.hist ++ es

/-- 60_exceptions.md section 4 (R115): from one step to the next the gate goes from open to closed only at EXIT, in a
DRAIN that faults (log entry 10), or in a turn `platformSetsGate false` at IDLE or STOPPED, the platform's (log entry
16). A DRAIN that completes opens it again in the same step. -/
def Obligations.GateClosesOnlyAtExitInAFaultingDrainOrByThePlatform : Prop :=
  ∀ s t : State, step s = .next t → s.ie = true → t.ie = false →
    (s.pc = .exit ∧ t.pc = .stopped) ∨ (s.pc = .drain ∧ t.fault.isSome = true) ∨
      (nextTurn s = .platformSetsGate false ∧ (s.pc = .idle ∨ s.pc = .stopped))
end

