-- ==== Sys2Proof/Laws/State.lean ====
section
/-!
SUPPORT. One lemma per field per named update of the state, each true by definition, so that no later proof unfolds a
record update.
-/

namespace Sys2Proof.Machine

/-! `State.emit` -/

@[simp] theorem State.emit_cfg (s : State) (e : Event) : (s.emit e).cfg = s.cfg := rfl
@[simp] theorem State.emit_inputs (s : State) (e : Event) : (s.emit e).inputs = s.inputs := rfl
@[simp] theorem State.emit_rb (s : State) (e : Event) : (s.emit e).rb = s.rb := rfl
@[simp] theorem State.emit_hostInitDone (s : State) (e : Event) : (s.emit e).hostInitDone = s.hostInitDone := rfl
@[simp] theorem State.emit_timedOut (s : State) (e : Event) : (s.emit e).timedOut = s.timedOut := rfl
@[simp] theorem State.emit_expectedByteCount (s : State) (e : Event) : (s.emit e).expectedByteCount = s.expectedByteCount := rfl
@[simp] theorem State.emit_staging (s : State) (e : Event) : (s.emit e).staging = s.staging := rfl
@[simp] theorem State.emit_selectedCommand (s : State) (e : Event) : (s.emit e).selectedCommand = s.selectedCommand := rfl
@[simp] theorem State.emit_stagedLen (s : State) (e : Event) : (s.emit e).stagedLen = s.stagedLen := rfl
@[simp] theorem State.emit_pc (s : State) (e : Event) : (s.emit e).pc = s.pc := rfl
@[simp] theorem State.emit_endCause (s : State) (e : Event) : (s.emit e).endCause = s.endCause := rfl
@[simp] theorem State.emit_result (s : State) (e : Event) : (s.emit e).result = s.result := rfl
@[simp] theorem State.emit_armed (s : State) (e : Event) : (s.emit e).armed = s.armed := rfl
@[simp] theorem State.emit_ie (s : State) (e : Event) : (s.emit e).ie = s.ie := rfl
@[simp] theorem State.emit_now (s : State) (e : Event) : (s.emit e).now = s.now := rfl
@[simp] theorem State.emit_alarm (s : State) (e : Event) : (s.emit e).alarm = s.alarm := rfl
@[simp] theorem State.emit_uartPending (s : State) (e : Event) : (s.emit e).uartPending = s.uartPending := rfl
@[simp] theorem State.emit_cmdPriv (s : State) (e : Event) : (s.emit e).cmdPriv = s.cmdPriv := rfl
@[simp] theorem State.emit_hist (s : State) (e : Event) : (s.emit e).hist = s.hist ++ [e] := rfl
@[simp] theorem State.emit_fault (s : State) (e : Event) : (s.emit e).fault = s.fault := rfl
@[simp] theorem State.emit_wsResult (s : State) (e : Event) : (s.emit e).wsResult = s.wsResult := rfl
@[simp] theorem State.emit_output (s : State) (e : Event) : (s.emit e).output = s.output := rfl
@[simp] theorem State.emit_turns (s : State) (e : Event) : (s.emit e).turns = s.turns := rfl
@[simp] theorem State.emit_turnNo (s : State) (e : Event) : (s.emit e).turnNo = s.turnNo := rfl

/-! `State.clearHist` -/

@[simp] theorem State.clearHist_cfg (s : State) : (s.clearHist).cfg = s.cfg := rfl
@[simp] theorem State.clearHist_inputs (s : State) : (s.clearHist).inputs = s.inputs := rfl
@[simp] theorem State.clearHist_rb (s : State) : (s.clearHist).rb = s.rb := rfl
@[simp] theorem State.clearHist_hostInitDone (s : State) : (s.clearHist).hostInitDone = s.hostInitDone := rfl
@[simp] theorem State.clearHist_timedOut (s : State) : (s.clearHist).timedOut = s.timedOut := rfl
@[simp] theorem State.clearHist_expectedByteCount (s : State) : (s.clearHist).expectedByteCount = s.expectedByteCount := rfl
@[simp] theorem State.clearHist_staging (s : State) : (s.clearHist).staging = s.staging := rfl
@[simp] theorem State.clearHist_selectedCommand (s : State) : (s.clearHist).selectedCommand = s.selectedCommand := rfl
@[simp] theorem State.clearHist_stagedLen (s : State) : (s.clearHist).stagedLen = s.stagedLen := rfl
@[simp] theorem State.clearHist_pc (s : State) : (s.clearHist).pc = s.pc := rfl
@[simp] theorem State.clearHist_endCause (s : State) : (s.clearHist).endCause = s.endCause := rfl
@[simp] theorem State.clearHist_result (s : State) : (s.clearHist).result = s.result := rfl
@[simp] theorem State.clearHist_armed (s : State) : (s.clearHist).armed = s.armed := rfl
@[simp] theorem State.clearHist_ie (s : State) : (s.clearHist).ie = s.ie := rfl
@[simp] theorem State.clearHist_now (s : State) : (s.clearHist).now = s.now := rfl
@[simp] theorem State.clearHist_alarm (s : State) : (s.clearHist).alarm = s.alarm := rfl
@[simp] theorem State.clearHist_uartPending (s : State) : (s.clearHist).uartPending = s.uartPending := rfl
@[simp] theorem State.clearHist_cmdPriv (s : State) : (s.clearHist).cmdPriv = s.cmdPriv := rfl
@[simp] theorem State.clearHist_hist (s : State) : (s.clearHist).hist = [] := rfl
@[simp] theorem State.clearHist_fault (s : State) : (s.clearHist).fault = s.fault := rfl
@[simp] theorem State.clearHist_wsResult (s : State) : (s.clearHist).wsResult = s.wsResult := rfl
@[simp] theorem State.clearHist_output (s : State) : (s.clearHist).output = s.output := rfl
@[simp] theorem State.clearHist_turns (s : State) : (s.clearHist).turns = s.turns := rfl
@[simp] theorem State.clearHist_turnNo (s : State) : (s.clearHist).turnNo = s.turnNo := rfl

/-! `State.setPc` -/

@[simp] theorem State.setPc_cfg (s : State) (p : ControlPoint) : (s.setPc p).cfg = s.cfg := rfl
@[simp] theorem State.setPc_inputs (s : State) (p : ControlPoint) : (s.setPc p).inputs = s.inputs := rfl
@[simp] theorem State.setPc_rb (s : State) (p : ControlPoint) : (s.setPc p).rb = s.rb := rfl
@[simp] theorem State.setPc_hostInitDone (s : State) (p : ControlPoint) : (s.setPc p).hostInitDone = s.hostInitDone := rfl
@[simp] theorem State.setPc_timedOut (s : State) (p : ControlPoint) : (s.setPc p).timedOut = s.timedOut := rfl
@[simp] theorem State.setPc_expectedByteCount (s : State) (p : ControlPoint) : (s.setPc p).expectedByteCount = s.expectedByteCount := rfl
@[simp] theorem State.setPc_staging (s : State) (p : ControlPoint) : (s.setPc p).staging = s.staging := rfl
@[simp] theorem State.setPc_selectedCommand (s : State) (p : ControlPoint) : (s.setPc p).selectedCommand = s.selectedCommand := rfl
@[simp] theorem State.setPc_stagedLen (s : State) (p : ControlPoint) : (s.setPc p).stagedLen = s.stagedLen := rfl
@[simp] theorem State.setPc_pc (s : State) (p : ControlPoint) : (s.setPc p).pc = p := rfl
@[simp] theorem State.setPc_endCause (s : State) (p : ControlPoint) : (s.setPc p).endCause = s.endCause := rfl
@[simp] theorem State.setPc_result (s : State) (p : ControlPoint) : (s.setPc p).result = s.result := rfl
@[simp] theorem State.setPc_armed (s : State) (p : ControlPoint) : (s.setPc p).armed = s.armed := rfl
@[simp] theorem State.setPc_ie (s : State) (p : ControlPoint) : (s.setPc p).ie = s.ie := rfl
@[simp] theorem State.setPc_now (s : State) (p : ControlPoint) : (s.setPc p).now = s.now := rfl
@[simp] theorem State.setPc_alarm (s : State) (p : ControlPoint) : (s.setPc p).alarm = s.alarm := rfl
@[simp] theorem State.setPc_uartPending (s : State) (p : ControlPoint) : (s.setPc p).uartPending = s.uartPending := rfl
@[simp] theorem State.setPc_cmdPriv (s : State) (p : ControlPoint) : (s.setPc p).cmdPriv = s.cmdPriv := rfl
@[simp] theorem State.setPc_hist (s : State) (p : ControlPoint) : (s.setPc p).hist = s.hist := rfl
@[simp] theorem State.setPc_fault (s : State) (p : ControlPoint) : (s.setPc p).fault = s.fault := rfl
@[simp] theorem State.setPc_wsResult (s : State) (p : ControlPoint) : (s.setPc p).wsResult = s.wsResult := rfl
@[simp] theorem State.setPc_output (s : State) (p : ControlPoint) : (s.setPc p).output = s.output := rfl
@[simp] theorem State.setPc_turns (s : State) (p : ControlPoint) : (s.setPc p).turns = s.turns := rfl
@[simp] theorem State.setPc_turnNo (s : State) (p : ControlPoint) : (s.setPc p).turnNo = s.turnNo := rfl

/-! `State.setIe` -/

@[simp] theorem State.setIe_cfg (s : State) (b : Bool) : (s.setIe b).cfg = s.cfg := rfl
@[simp] theorem State.setIe_inputs (s : State) (b : Bool) : (s.setIe b).inputs = s.inputs := rfl
@[simp] theorem State.setIe_rb (s : State) (b : Bool) : (s.setIe b).rb = s.rb := rfl
@[simp] theorem State.setIe_hostInitDone (s : State) (b : Bool) : (s.setIe b).hostInitDone = s.hostInitDone := rfl
@[simp] theorem State.setIe_timedOut (s : State) (b : Bool) : (s.setIe b).timedOut = s.timedOut := rfl
@[simp] theorem State.setIe_expectedByteCount (s : State) (b : Bool) : (s.setIe b).expectedByteCount = s.expectedByteCount := rfl
@[simp] theorem State.setIe_staging (s : State) (b : Bool) : (s.setIe b).staging = s.staging := rfl
@[simp] theorem State.setIe_selectedCommand (s : State) (b : Bool) : (s.setIe b).selectedCommand = s.selectedCommand := rfl
@[simp] theorem State.setIe_stagedLen (s : State) (b : Bool) : (s.setIe b).stagedLen = s.stagedLen := rfl
@[simp] theorem State.setIe_pc (s : State) (b : Bool) : (s.setIe b).pc = s.pc := rfl
@[simp] theorem State.setIe_endCause (s : State) (b : Bool) : (s.setIe b).endCause = s.endCause := rfl
@[simp] theorem State.setIe_result (s : State) (b : Bool) : (s.setIe b).result = s.result := rfl
@[simp] theorem State.setIe_armed (s : State) (b : Bool) : (s.setIe b).armed = s.armed := rfl
@[simp] theorem State.setIe_ie (s : State) (b : Bool) : (s.setIe b).ie = b := rfl
@[simp] theorem State.setIe_now (s : State) (b : Bool) : (s.setIe b).now = s.now := rfl
@[simp] theorem State.setIe_alarm (s : State) (b : Bool) : (s.setIe b).alarm = s.alarm := rfl
@[simp] theorem State.setIe_uartPending (s : State) (b : Bool) : (s.setIe b).uartPending = s.uartPending := rfl
@[simp] theorem State.setIe_cmdPriv (s : State) (b : Bool) : (s.setIe b).cmdPriv = s.cmdPriv := rfl
@[simp] theorem State.setIe_hist (s : State) (b : Bool) : (s.setIe b).hist = s.hist := rfl
@[simp] theorem State.setIe_fault (s : State) (b : Bool) : (s.setIe b).fault = s.fault := rfl
@[simp] theorem State.setIe_wsResult (s : State) (b : Bool) : (s.setIe b).wsResult = s.wsResult := rfl
@[simp] theorem State.setIe_output (s : State) (b : Bool) : (s.setIe b).output = s.output := rfl
@[simp] theorem State.setIe_turns (s : State) (b : Bool) : (s.setIe b).turns = s.turns := rfl
@[simp] theorem State.setIe_turnNo (s : State) (b : Bool) : (s.setIe b).turnNo = s.turnNo := rfl

/-! `State.setRing` -/

@[simp] theorem State.setRing_cfg (s : State) (r : Ring) : (s.setRing r).cfg = s.cfg := rfl
@[simp] theorem State.setRing_inputs (s : State) (r : Ring) : (s.setRing r).inputs = s.inputs := rfl
@[simp] theorem State.setRing_rb (s : State) (r : Ring) : (s.setRing r).rb = r := rfl
@[simp] theorem State.setRing_hostInitDone (s : State) (r : Ring) : (s.setRing r).hostInitDone = s.hostInitDone := rfl
@[simp] theorem State.setRing_timedOut (s : State) (r : Ring) : (s.setRing r).timedOut = s.timedOut := rfl
@[simp] theorem State.setRing_expectedByteCount (s : State) (r : Ring) : (s.setRing r).expectedByteCount = s.expectedByteCount := rfl
@[simp] theorem State.setRing_staging (s : State) (r : Ring) : (s.setRing r).staging = s.staging := rfl
@[simp] theorem State.setRing_selectedCommand (s : State) (r : Ring) : (s.setRing r).selectedCommand = s.selectedCommand := rfl
@[simp] theorem State.setRing_stagedLen (s : State) (r : Ring) : (s.setRing r).stagedLen = s.stagedLen := rfl
@[simp] theorem State.setRing_pc (s : State) (r : Ring) : (s.setRing r).pc = s.pc := rfl
@[simp] theorem State.setRing_endCause (s : State) (r : Ring) : (s.setRing r).endCause = s.endCause := rfl
@[simp] theorem State.setRing_result (s : State) (r : Ring) : (s.setRing r).result = s.result := rfl
@[simp] theorem State.setRing_armed (s : State) (r : Ring) : (s.setRing r).armed = s.armed := rfl
@[simp] theorem State.setRing_ie (s : State) (r : Ring) : (s.setRing r).ie = s.ie := rfl
@[simp] theorem State.setRing_now (s : State) (r : Ring) : (s.setRing r).now = s.now := rfl
@[simp] theorem State.setRing_alarm (s : State) (r : Ring) : (s.setRing r).alarm = s.alarm := rfl
@[simp] theorem State.setRing_uartPending (s : State) (r : Ring) : (s.setRing r).uartPending = s.uartPending := rfl
@[simp] theorem State.setRing_cmdPriv (s : State) (r : Ring) : (s.setRing r).cmdPriv = s.cmdPriv := rfl
@[simp] theorem State.setRing_hist (s : State) (r : Ring) : (s.setRing r).hist = s.hist := rfl
@[simp] theorem State.setRing_fault (s : State) (r : Ring) : (s.setRing r).fault = s.fault := rfl
@[simp] theorem State.setRing_wsResult (s : State) (r : Ring) : (s.setRing r).wsResult = s.wsResult := rfl
@[simp] theorem State.setRing_output (s : State) (r : Ring) : (s.setRing r).output = s.output := rfl
@[simp] theorem State.setRing_turns (s : State) (r : Ring) : (s.setRing r).turns = s.turns := rfl
@[simp] theorem State.setRing_turnNo (s : State) (r : Ring) : (s.setRing r).turnNo = s.turnNo := rfl

/-! `State.setStaging` -/

@[simp] theorem State.setStaging_cfg (s : State) (m : Mem) : (s.setStaging m).cfg = s.cfg := rfl
@[simp] theorem State.setStaging_inputs (s : State) (m : Mem) : (s.setStaging m).inputs = s.inputs := rfl
@[simp] theorem State.setStaging_rb (s : State) (m : Mem) : (s.setStaging m).rb = s.rb := rfl
@[simp] theorem State.setStaging_hostInitDone (s : State) (m : Mem) : (s.setStaging m).hostInitDone = s.hostInitDone := rfl
@[simp] theorem State.setStaging_timedOut (s : State) (m : Mem) : (s.setStaging m).timedOut = s.timedOut := rfl
@[simp] theorem State.setStaging_expectedByteCount (s : State) (m : Mem) : (s.setStaging m).expectedByteCount = s.expectedByteCount := rfl
@[simp] theorem State.setStaging_staging (s : State) (m : Mem) : (s.setStaging m).staging = m := rfl
@[simp] theorem State.setStaging_selectedCommand (s : State) (m : Mem) : (s.setStaging m).selectedCommand = s.selectedCommand := rfl
@[simp] theorem State.setStaging_stagedLen (s : State) (m : Mem) : (s.setStaging m).stagedLen = s.stagedLen := rfl
@[simp] theorem State.setStaging_pc (s : State) (m : Mem) : (s.setStaging m).pc = s.pc := rfl
@[simp] theorem State.setStaging_endCause (s : State) (m : Mem) : (s.setStaging m).endCause = s.endCause := rfl
@[simp] theorem State.setStaging_result (s : State) (m : Mem) : (s.setStaging m).result = s.result := rfl
@[simp] theorem State.setStaging_armed (s : State) (m : Mem) : (s.setStaging m).armed = s.armed := rfl
@[simp] theorem State.setStaging_ie (s : State) (m : Mem) : (s.setStaging m).ie = s.ie := rfl
@[simp] theorem State.setStaging_now (s : State) (m : Mem) : (s.setStaging m).now = s.now := rfl
@[simp] theorem State.setStaging_alarm (s : State) (m : Mem) : (s.setStaging m).alarm = s.alarm := rfl
@[simp] theorem State.setStaging_uartPending (s : State) (m : Mem) : (s.setStaging m).uartPending = s.uartPending := rfl
@[simp] theorem State.setStaging_cmdPriv (s : State) (m : Mem) : (s.setStaging m).cmdPriv = s.cmdPriv := rfl
@[simp] theorem State.setStaging_hist (s : State) (m : Mem) : (s.setStaging m).hist = s.hist := rfl
@[simp] theorem State.setStaging_fault (s : State) (m : Mem) : (s.setStaging m).fault = s.fault := rfl
@[simp] theorem State.setStaging_wsResult (s : State) (m : Mem) : (s.setStaging m).wsResult = s.wsResult := rfl
@[simp] theorem State.setStaging_output (s : State) (m : Mem) : (s.setStaging m).output = s.output := rfl
@[simp] theorem State.setStaging_turns (s : State) (m : Mem) : (s.setStaging m).turns = s.turns := rfl
@[simp] theorem State.setStaging_turnNo (s : State) (m : Mem) : (s.setStaging m).turnNo = s.turnNo := rfl

/-! `State.setStagedLen` -/

@[simp] theorem State.setStagedLen_cfg (s : State) (n : Nat) : (s.setStagedLen n).cfg = s.cfg := rfl
@[simp] theorem State.setStagedLen_inputs (s : State) (n : Nat) : (s.setStagedLen n).inputs = s.inputs := rfl
@[simp] theorem State.setStagedLen_rb (s : State) (n : Nat) : (s.setStagedLen n).rb = s.rb := rfl
@[simp] theorem State.setStagedLen_hostInitDone (s : State) (n : Nat) : (s.setStagedLen n).hostInitDone = s.hostInitDone := rfl
@[simp] theorem State.setStagedLen_timedOut (s : State) (n : Nat) : (s.setStagedLen n).timedOut = s.timedOut := rfl
@[simp] theorem State.setStagedLen_expectedByteCount (s : State) (n : Nat) : (s.setStagedLen n).expectedByteCount = s.expectedByteCount := rfl
@[simp] theorem State.setStagedLen_staging (s : State) (n : Nat) : (s.setStagedLen n).staging = s.staging := rfl
@[simp] theorem State.setStagedLen_selectedCommand (s : State) (n : Nat) : (s.setStagedLen n).selectedCommand = s.selectedCommand := rfl
@[simp] theorem State.setStagedLen_stagedLen (s : State) (n : Nat) : (s.setStagedLen n).stagedLen = n := rfl
@[simp] theorem State.setStagedLen_pc (s : State) (n : Nat) : (s.setStagedLen n).pc = s.pc := rfl
@[simp] theorem State.setStagedLen_endCause (s : State) (n : Nat) : (s.setStagedLen n).endCause = s.endCause := rfl
@[simp] theorem State.setStagedLen_result (s : State) (n : Nat) : (s.setStagedLen n).result = s.result := rfl
@[simp] theorem State.setStagedLen_armed (s : State) (n : Nat) : (s.setStagedLen n).armed = s.armed := rfl
@[simp] theorem State.setStagedLen_ie (s : State) (n : Nat) : (s.setStagedLen n).ie = s.ie := rfl
@[simp] theorem State.setStagedLen_now (s : State) (n : Nat) : (s.setStagedLen n).now = s.now := rfl
@[simp] theorem State.setStagedLen_alarm (s : State) (n : Nat) : (s.setStagedLen n).alarm = s.alarm := rfl
@[simp] theorem State.setStagedLen_uartPending (s : State) (n : Nat) : (s.setStagedLen n).uartPending = s.uartPending := rfl
@[simp] theorem State.setStagedLen_cmdPriv (s : State) (n : Nat) : (s.setStagedLen n).cmdPriv = s.cmdPriv := rfl
@[simp] theorem State.setStagedLen_hist (s : State) (n : Nat) : (s.setStagedLen n).hist = s.hist := rfl
@[simp] theorem State.setStagedLen_fault (s : State) (n : Nat) : (s.setStagedLen n).fault = s.fault := rfl
@[simp] theorem State.setStagedLen_wsResult (s : State) (n : Nat) : (s.setStagedLen n).wsResult = s.wsResult := rfl
@[simp] theorem State.setStagedLen_output (s : State) (n : Nat) : (s.setStagedLen n).output = s.output := rfl
@[simp] theorem State.setStagedLen_turns (s : State) (n : Nat) : (s.setStagedLen n).turns = s.turns := rfl
@[simp] theorem State.setStagedLen_turnNo (s : State) (n : Nat) : (s.setStagedLen n).turnNo = s.turnNo := rfl

/-! `State.setExpected` -/

@[simp] theorem State.setExpected_cfg (s : State) (n : Nat) : (s.setExpected n).cfg = s.cfg := rfl
@[simp] theorem State.setExpected_inputs (s : State) (n : Nat) : (s.setExpected n).inputs = s.inputs := rfl
@[simp] theorem State.setExpected_rb (s : State) (n : Nat) : (s.setExpected n).rb = s.rb := rfl
@[simp] theorem State.setExpected_hostInitDone (s : State) (n : Nat) : (s.setExpected n).hostInitDone = s.hostInitDone := rfl
@[simp] theorem State.setExpected_timedOut (s : State) (n : Nat) : (s.setExpected n).timedOut = s.timedOut := rfl
@[simp] theorem State.setExpected_expectedByteCount (s : State) (n : Nat) : (s.setExpected n).expectedByteCount = n := rfl
@[simp] theorem State.setExpected_staging (s : State) (n : Nat) : (s.setExpected n).staging = s.staging := rfl
@[simp] theorem State.setExpected_selectedCommand (s : State) (n : Nat) : (s.setExpected n).selectedCommand = s.selectedCommand := rfl
@[simp] theorem State.setExpected_stagedLen (s : State) (n : Nat) : (s.setExpected n).stagedLen = s.stagedLen := rfl
@[simp] theorem State.setExpected_pc (s : State) (n : Nat) : (s.setExpected n).pc = s.pc := rfl
@[simp] theorem State.setExpected_endCause (s : State) (n : Nat) : (s.setExpected n).endCause = s.endCause := rfl
@[simp] theorem State.setExpected_result (s : State) (n : Nat) : (s.setExpected n).result = s.result := rfl
@[simp] theorem State.setExpected_armed (s : State) (n : Nat) : (s.setExpected n).armed = s.armed := rfl
@[simp] theorem State.setExpected_ie (s : State) (n : Nat) : (s.setExpected n).ie = s.ie := rfl
@[simp] theorem State.setExpected_now (s : State) (n : Nat) : (s.setExpected n).now = s.now := rfl
@[simp] theorem State.setExpected_alarm (s : State) (n : Nat) : (s.setExpected n).alarm = s.alarm := rfl
@[simp] theorem State.setExpected_uartPending (s : State) (n : Nat) : (s.setExpected n).uartPending = s.uartPending := rfl
@[simp] theorem State.setExpected_cmdPriv (s : State) (n : Nat) : (s.setExpected n).cmdPriv = s.cmdPriv := rfl
@[simp] theorem State.setExpected_hist (s : State) (n : Nat) : (s.setExpected n).hist = s.hist := rfl
@[simp] theorem State.setExpected_fault (s : State) (n : Nat) : (s.setExpected n).fault = s.fault := rfl
@[simp] theorem State.setExpected_wsResult (s : State) (n : Nat) : (s.setExpected n).wsResult = s.wsResult := rfl
@[simp] theorem State.setExpected_output (s : State) (n : Nat) : (s.setExpected n).output = s.output := rfl
@[simp] theorem State.setExpected_turns (s : State) (n : Nat) : (s.setExpected n).turns = s.turns := rfl
@[simp] theorem State.setExpected_turnNo (s : State) (n : Nat) : (s.setExpected n).turnNo = s.turnNo := rfl

/-! `State.setSelected` -/

@[simp] theorem State.setSelected_cfg (s : State) (o : Option Byte) : (s.setSelected o).cfg = s.cfg := rfl
@[simp] theorem State.setSelected_inputs (s : State) (o : Option Byte) : (s.setSelected o).inputs = s.inputs := rfl
@[simp] theorem State.setSelected_rb (s : State) (o : Option Byte) : (s.setSelected o).rb = s.rb := rfl
@[simp] theorem State.setSelected_hostInitDone (s : State) (o : Option Byte) : (s.setSelected o).hostInitDone = s.hostInitDone := rfl
@[simp] theorem State.setSelected_timedOut (s : State) (o : Option Byte) : (s.setSelected o).timedOut = s.timedOut := rfl
@[simp] theorem State.setSelected_expectedByteCount (s : State) (o : Option Byte) : (s.setSelected o).expectedByteCount = s.expectedByteCount := rfl
@[simp] theorem State.setSelected_staging (s : State) (o : Option Byte) : (s.setSelected o).staging = s.staging := rfl
@[simp] theorem State.setSelected_selectedCommand (s : State) (o : Option Byte) : (s.setSelected o).selectedCommand = o := rfl
@[simp] theorem State.setSelected_stagedLen (s : State) (o : Option Byte) : (s.setSelected o).stagedLen = s.stagedLen := rfl
@[simp] theorem State.setSelected_pc (s : State) (o : Option Byte) : (s.setSelected o).pc = s.pc := rfl
@[simp] theorem State.setSelected_endCause (s : State) (o : Option Byte) : (s.setSelected o).endCause = s.endCause := rfl
@[simp] theorem State.setSelected_result (s : State) (o : Option Byte) : (s.setSelected o).result = s.result := rfl
@[simp] theorem State.setSelected_armed (s : State) (o : Option Byte) : (s.setSelected o).armed = s.armed := rfl
@[simp] theorem State.setSelected_ie (s : State) (o : Option Byte) : (s.setSelected o).ie = s.ie := rfl
@[simp] theorem State.setSelected_now (s : State) (o : Option Byte) : (s.setSelected o).now = s.now := rfl
@[simp] theorem State.setSelected_alarm (s : State) (o : Option Byte) : (s.setSelected o).alarm = s.alarm := rfl
@[simp] theorem State.setSelected_uartPending (s : State) (o : Option Byte) : (s.setSelected o).uartPending = s.uartPending := rfl
@[simp] theorem State.setSelected_cmdPriv (s : State) (o : Option Byte) : (s.setSelected o).cmdPriv = s.cmdPriv := rfl
@[simp] theorem State.setSelected_hist (s : State) (o : Option Byte) : (s.setSelected o).hist = s.hist := rfl
@[simp] theorem State.setSelected_fault (s : State) (o : Option Byte) : (s.setSelected o).fault = s.fault := rfl
@[simp] theorem State.setSelected_wsResult (s : State) (o : Option Byte) : (s.setSelected o).wsResult = s.wsResult := rfl
@[simp] theorem State.setSelected_output (s : State) (o : Option Byte) : (s.setSelected o).output = s.output := rfl
@[simp] theorem State.setSelected_turns (s : State) (o : Option Byte) : (s.setSelected o).turns = s.turns := rfl
@[simp] theorem State.setSelected_turnNo (s : State) (o : Option Byte) : (s.setSelected o).turnNo = s.turnNo := rfl

/-! `State.setInitDone` -/

@[simp] theorem State.setInitDone_cfg (s : State) (b : Bool) : (s.setInitDone b).cfg = s.cfg := rfl
@[simp] theorem State.setInitDone_inputs (s : State) (b : Bool) : (s.setInitDone b).inputs = s.inputs := rfl
@[simp] theorem State.setInitDone_rb (s : State) (b : Bool) : (s.setInitDone b).rb = s.rb := rfl
@[simp] theorem State.setInitDone_hostInitDone (s : State) (b : Bool) : (s.setInitDone b).hostInitDone = b := rfl
@[simp] theorem State.setInitDone_timedOut (s : State) (b : Bool) : (s.setInitDone b).timedOut = s.timedOut := rfl
@[simp] theorem State.setInitDone_expectedByteCount (s : State) (b : Bool) : (s.setInitDone b).expectedByteCount = s.expectedByteCount := rfl
@[simp] theorem State.setInitDone_staging (s : State) (b : Bool) : (s.setInitDone b).staging = s.staging := rfl
@[simp] theorem State.setInitDone_selectedCommand (s : State) (b : Bool) : (s.setInitDone b).selectedCommand = s.selectedCommand := rfl
@[simp] theorem State.setInitDone_stagedLen (s : State) (b : Bool) : (s.setInitDone b).stagedLen = s.stagedLen := rfl
@[simp] theorem State.setInitDone_pc (s : State) (b : Bool) : (s.setInitDone b).pc = s.pc := rfl
@[simp] theorem State.setInitDone_endCause (s : State) (b : Bool) : (s.setInitDone b).endCause = s.endCause := rfl
@[simp] theorem State.setInitDone_result (s : State) (b : Bool) : (s.setInitDone b).result = s.result := rfl
@[simp] theorem State.setInitDone_armed (s : State) (b : Bool) : (s.setInitDone b).armed = s.armed := rfl
@[simp] theorem State.setInitDone_ie (s : State) (b : Bool) : (s.setInitDone b).ie = s.ie := rfl
@[simp] theorem State.setInitDone_now (s : State) (b : Bool) : (s.setInitDone b).now = s.now := rfl
@[simp] theorem State.setInitDone_alarm (s : State) (b : Bool) : (s.setInitDone b).alarm = s.alarm := rfl
@[simp] theorem State.setInitDone_uartPending (s : State) (b : Bool) : (s.setInitDone b).uartPending = s.uartPending := rfl
@[simp] theorem State.setInitDone_cmdPriv (s : State) (b : Bool) : (s.setInitDone b).cmdPriv = s.cmdPriv := rfl
@[simp] theorem State.setInitDone_hist (s : State) (b : Bool) : (s.setInitDone b).hist = s.hist := rfl
@[simp] theorem State.setInitDone_fault (s : State) (b : Bool) : (s.setInitDone b).fault = s.fault := rfl
@[simp] theorem State.setInitDone_wsResult (s : State) (b : Bool) : (s.setInitDone b).wsResult = s.wsResult := rfl
@[simp] theorem State.setInitDone_output (s : State) (b : Bool) : (s.setInitDone b).output = s.output := rfl
@[simp] theorem State.setInitDone_turns (s : State) (b : Bool) : (s.setInitDone b).turns = s.turns := rfl
@[simp] theorem State.setInitDone_turnNo (s : State) (b : Bool) : (s.setInitDone b).turnNo = s.turnNo := rfl

/-! `State.setTimedOut` -/

@[simp] theorem State.setTimedOut_cfg (s : State) (b : Bool) : (s.setTimedOut b).cfg = s.cfg := rfl
@[simp] theorem State.setTimedOut_inputs (s : State) (b : Bool) : (s.setTimedOut b).inputs = s.inputs := rfl
@[simp] theorem State.setTimedOut_rb (s : State) (b : Bool) : (s.setTimedOut b).rb = s.rb := rfl
@[simp] theorem State.setTimedOut_hostInitDone (s : State) (b : Bool) : (s.setTimedOut b).hostInitDone = s.hostInitDone := rfl
@[simp] theorem State.setTimedOut_timedOut (s : State) (b : Bool) : (s.setTimedOut b).timedOut = b := rfl
@[simp] theorem State.setTimedOut_expectedByteCount (s : State) (b : Bool) : (s.setTimedOut b).expectedByteCount = s.expectedByteCount := rfl
@[simp] theorem State.setTimedOut_staging (s : State) (b : Bool) : (s.setTimedOut b).staging = s.staging := rfl
@[simp] theorem State.setTimedOut_selectedCommand (s : State) (b : Bool) : (s.setTimedOut b).selectedCommand = s.selectedCommand := rfl
@[simp] theorem State.setTimedOut_stagedLen (s : State) (b : Bool) : (s.setTimedOut b).stagedLen = s.stagedLen := rfl
@[simp] theorem State.setTimedOut_pc (s : State) (b : Bool) : (s.setTimedOut b).pc = s.pc := rfl
@[simp] theorem State.setTimedOut_endCause (s : State) (b : Bool) : (s.setTimedOut b).endCause = s.endCause := rfl
@[simp] theorem State.setTimedOut_result (s : State) (b : Bool) : (s.setTimedOut b).result = s.result := rfl
@[simp] theorem State.setTimedOut_armed (s : State) (b : Bool) : (s.setTimedOut b).armed = s.armed := rfl
@[simp] theorem State.setTimedOut_ie (s : State) (b : Bool) : (s.setTimedOut b).ie = s.ie := rfl
@[simp] theorem State.setTimedOut_now (s : State) (b : Bool) : (s.setTimedOut b).now = s.now := rfl
@[simp] theorem State.setTimedOut_alarm (s : State) (b : Bool) : (s.setTimedOut b).alarm = s.alarm := rfl
@[simp] theorem State.setTimedOut_uartPending (s : State) (b : Bool) : (s.setTimedOut b).uartPending = s.uartPending := rfl
@[simp] theorem State.setTimedOut_cmdPriv (s : State) (b : Bool) : (s.setTimedOut b).cmdPriv = s.cmdPriv := rfl
@[simp] theorem State.setTimedOut_hist (s : State) (b : Bool) : (s.setTimedOut b).hist = s.hist := rfl
@[simp] theorem State.setTimedOut_fault (s : State) (b : Bool) : (s.setTimedOut b).fault = s.fault := rfl
@[simp] theorem State.setTimedOut_wsResult (s : State) (b : Bool) : (s.setTimedOut b).wsResult = s.wsResult := rfl
@[simp] theorem State.setTimedOut_output (s : State) (b : Bool) : (s.setTimedOut b).output = s.output := rfl
@[simp] theorem State.setTimedOut_turns (s : State) (b : Bool) : (s.setTimedOut b).turns = s.turns := rfl
@[simp] theorem State.setTimedOut_turnNo (s : State) (b : Bool) : (s.setTimedOut b).turnNo = s.turnNo := rfl

/-! `State.setEndCause` -/

@[simp] theorem State.setEndCause_cfg (s : State) (c : Option EndCause) : (s.setEndCause c).cfg = s.cfg := rfl
@[simp] theorem State.setEndCause_inputs (s : State) (c : Option EndCause) : (s.setEndCause c).inputs = s.inputs := rfl
@[simp] theorem State.setEndCause_rb (s : State) (c : Option EndCause) : (s.setEndCause c).rb = s.rb := rfl
@[simp] theorem State.setEndCause_hostInitDone (s : State) (c : Option EndCause) : (s.setEndCause c).hostInitDone = s.hostInitDone := rfl
@[simp] theorem State.setEndCause_timedOut (s : State) (c : Option EndCause) : (s.setEndCause c).timedOut = s.timedOut := rfl
@[simp] theorem State.setEndCause_expectedByteCount (s : State) (c : Option EndCause) : (s.setEndCause c).expectedByteCount = s.expectedByteCount := rfl
@[simp] theorem State.setEndCause_staging (s : State) (c : Option EndCause) : (s.setEndCause c).staging = s.staging := rfl
@[simp] theorem State.setEndCause_selectedCommand (s : State) (c : Option EndCause) : (s.setEndCause c).selectedCommand = s.selectedCommand := rfl
@[simp] theorem State.setEndCause_stagedLen (s : State) (c : Option EndCause) : (s.setEndCause c).stagedLen = s.stagedLen := rfl
@[simp] theorem State.setEndCause_pc (s : State) (c : Option EndCause) : (s.setEndCause c).pc = s.pc := rfl
@[simp] theorem State.setEndCause_endCause (s : State) (c : Option EndCause) : (s.setEndCause c).endCause = c := rfl
@[simp] theorem State.setEndCause_result (s : State) (c : Option EndCause) : (s.setEndCause c).result = s.result := rfl
@[simp] theorem State.setEndCause_armed (s : State) (c : Option EndCause) : (s.setEndCause c).armed = s.armed := rfl
@[simp] theorem State.setEndCause_ie (s : State) (c : Option EndCause) : (s.setEndCause c).ie = s.ie := rfl
@[simp] theorem State.setEndCause_now (s : State) (c : Option EndCause) : (s.setEndCause c).now = s.now := rfl
@[simp] theorem State.setEndCause_alarm (s : State) (c : Option EndCause) : (s.setEndCause c).alarm = s.alarm := rfl
@[simp] theorem State.setEndCause_uartPending (s : State) (c : Option EndCause) : (s.setEndCause c).uartPending = s.uartPending := rfl
@[simp] theorem State.setEndCause_cmdPriv (s : State) (c : Option EndCause) : (s.setEndCause c).cmdPriv = s.cmdPriv := rfl
@[simp] theorem State.setEndCause_hist (s : State) (c : Option EndCause) : (s.setEndCause c).hist = s.hist := rfl
@[simp] theorem State.setEndCause_fault (s : State) (c : Option EndCause) : (s.setEndCause c).fault = s.fault := rfl
@[simp] theorem State.setEndCause_wsResult (s : State) (c : Option EndCause) : (s.setEndCause c).wsResult = s.wsResult := rfl
@[simp] theorem State.setEndCause_output (s : State) (c : Option EndCause) : (s.setEndCause c).output = s.output := rfl
@[simp] theorem State.setEndCause_turns (s : State) (c : Option EndCause) : (s.setEndCause c).turns = s.turns := rfl
@[simp] theorem State.setEndCause_turnNo (s : State) (c : Option EndCause) : (s.setEndCause c).turnNo = s.turnNo := rfl

/-! `State.setResult` -/

@[simp] theorem State.setResult_cfg (s : State) (r : Option Bool) : (s.setResult r).cfg = s.cfg := rfl
@[simp] theorem State.setResult_inputs (s : State) (r : Option Bool) : (s.setResult r).inputs = s.inputs := rfl
@[simp] theorem State.setResult_rb (s : State) (r : Option Bool) : (s.setResult r).rb = s.rb := rfl
@[simp] theorem State.setResult_hostInitDone (s : State) (r : Option Bool) : (s.setResult r).hostInitDone = s.hostInitDone := rfl
@[simp] theorem State.setResult_timedOut (s : State) (r : Option Bool) : (s.setResult r).timedOut = s.timedOut := rfl
@[simp] theorem State.setResult_expectedByteCount (s : State) (r : Option Bool) : (s.setResult r).expectedByteCount = s.expectedByteCount := rfl
@[simp] theorem State.setResult_staging (s : State) (r : Option Bool) : (s.setResult r).staging = s.staging := rfl
@[simp] theorem State.setResult_selectedCommand (s : State) (r : Option Bool) : (s.setResult r).selectedCommand = s.selectedCommand := rfl
@[simp] theorem State.setResult_stagedLen (s : State) (r : Option Bool) : (s.setResult r).stagedLen = s.stagedLen := rfl
@[simp] theorem State.setResult_pc (s : State) (r : Option Bool) : (s.setResult r).pc = s.pc := rfl
@[simp] theorem State.setResult_endCause (s : State) (r : Option Bool) : (s.setResult r).endCause = s.endCause := rfl
@[simp] theorem State.setResult_result (s : State) (r : Option Bool) : (s.setResult r).result = r := rfl
@[simp] theorem State.setResult_armed (s : State) (r : Option Bool) : (s.setResult r).armed = s.armed := rfl
@[simp] theorem State.setResult_ie (s : State) (r : Option Bool) : (s.setResult r).ie = s.ie := rfl
@[simp] theorem State.setResult_now (s : State) (r : Option Bool) : (s.setResult r).now = s.now := rfl
@[simp] theorem State.setResult_alarm (s : State) (r : Option Bool) : (s.setResult r).alarm = s.alarm := rfl
@[simp] theorem State.setResult_uartPending (s : State) (r : Option Bool) : (s.setResult r).uartPending = s.uartPending := rfl
@[simp] theorem State.setResult_cmdPriv (s : State) (r : Option Bool) : (s.setResult r).cmdPriv = s.cmdPriv := rfl
@[simp] theorem State.setResult_hist (s : State) (r : Option Bool) : (s.setResult r).hist = s.hist := rfl
@[simp] theorem State.setResult_fault (s : State) (r : Option Bool) : (s.setResult r).fault = s.fault := rfl
@[simp] theorem State.setResult_wsResult (s : State) (r : Option Bool) : (s.setResult r).wsResult = s.wsResult := rfl
@[simp] theorem State.setResult_output (s : State) (r : Option Bool) : (s.setResult r).output = s.output := rfl
@[simp] theorem State.setResult_turns (s : State) (r : Option Bool) : (s.setResult r).turns = s.turns := rfl
@[simp] theorem State.setResult_turnNo (s : State) (r : Option Bool) : (s.setResult r).turnNo = s.turnNo := rfl

/-! `State.setArmed` -/

@[simp] theorem State.setArmed_cfg (s : State) (b : Bool) : (s.setArmed b).cfg = s.cfg := rfl
@[simp] theorem State.setArmed_inputs (s : State) (b : Bool) : (s.setArmed b).inputs = s.inputs := rfl
@[simp] theorem State.setArmed_rb (s : State) (b : Bool) : (s.setArmed b).rb = s.rb := rfl
@[simp] theorem State.setArmed_hostInitDone (s : State) (b : Bool) : (s.setArmed b).hostInitDone = s.hostInitDone := rfl
@[simp] theorem State.setArmed_timedOut (s : State) (b : Bool) : (s.setArmed b).timedOut = s.timedOut := rfl
@[simp] theorem State.setArmed_expectedByteCount (s : State) (b : Bool) : (s.setArmed b).expectedByteCount = s.expectedByteCount := rfl
@[simp] theorem State.setArmed_staging (s : State) (b : Bool) : (s.setArmed b).staging = s.staging := rfl
@[simp] theorem State.setArmed_selectedCommand (s : State) (b : Bool) : (s.setArmed b).selectedCommand = s.selectedCommand := rfl
@[simp] theorem State.setArmed_stagedLen (s : State) (b : Bool) : (s.setArmed b).stagedLen = s.stagedLen := rfl
@[simp] theorem State.setArmed_pc (s : State) (b : Bool) : (s.setArmed b).pc = s.pc := rfl
@[simp] theorem State.setArmed_endCause (s : State) (b : Bool) : (s.setArmed b).endCause = s.endCause := rfl
@[simp] theorem State.setArmed_result (s : State) (b : Bool) : (s.setArmed b).result = s.result := rfl
@[simp] theorem State.setArmed_armed (s : State) (b : Bool) : (s.setArmed b).armed = b := rfl
@[simp] theorem State.setArmed_ie (s : State) (b : Bool) : (s.setArmed b).ie = s.ie := rfl
@[simp] theorem State.setArmed_now (s : State) (b : Bool) : (s.setArmed b).now = s.now := rfl
@[simp] theorem State.setArmed_alarm (s : State) (b : Bool) : (s.setArmed b).alarm = s.alarm := rfl
@[simp] theorem State.setArmed_uartPending (s : State) (b : Bool) : (s.setArmed b).uartPending = s.uartPending := rfl
@[simp] theorem State.setArmed_cmdPriv (s : State) (b : Bool) : (s.setArmed b).cmdPriv = s.cmdPriv := rfl
@[simp] theorem State.setArmed_hist (s : State) (b : Bool) : (s.setArmed b).hist = s.hist := rfl
@[simp] theorem State.setArmed_fault (s : State) (b : Bool) : (s.setArmed b).fault = s.fault := rfl
@[simp] theorem State.setArmed_wsResult (s : State) (b : Bool) : (s.setArmed b).wsResult = s.wsResult := rfl
@[simp] theorem State.setArmed_output (s : State) (b : Bool) : (s.setArmed b).output = s.output := rfl
@[simp] theorem State.setArmed_turns (s : State) (b : Bool) : (s.setArmed b).turns = s.turns := rfl
@[simp] theorem State.setArmed_turnNo (s : State) (b : Bool) : (s.setArmed b).turnNo = s.turnNo := rfl

/-! `State.setAlarm` -/

@[simp] theorem State.setAlarm_cfg (s : State) (a : Alarm) : (s.setAlarm a).cfg = s.cfg := rfl
@[simp] theorem State.setAlarm_inputs (s : State) (a : Alarm) : (s.setAlarm a).inputs = s.inputs := rfl
@[simp] theorem State.setAlarm_rb (s : State) (a : Alarm) : (s.setAlarm a).rb = s.rb := rfl
@[simp] theorem State.setAlarm_hostInitDone (s : State) (a : Alarm) : (s.setAlarm a).hostInitDone = s.hostInitDone := rfl
@[simp] theorem State.setAlarm_timedOut (s : State) (a : Alarm) : (s.setAlarm a).timedOut = s.timedOut := rfl
@[simp] theorem State.setAlarm_expectedByteCount (s : State) (a : Alarm) : (s.setAlarm a).expectedByteCount = s.expectedByteCount := rfl
@[simp] theorem State.setAlarm_staging (s : State) (a : Alarm) : (s.setAlarm a).staging = s.staging := rfl
@[simp] theorem State.setAlarm_selectedCommand (s : State) (a : Alarm) : (s.setAlarm a).selectedCommand = s.selectedCommand := rfl
@[simp] theorem State.setAlarm_stagedLen (s : State) (a : Alarm) : (s.setAlarm a).stagedLen = s.stagedLen := rfl
@[simp] theorem State.setAlarm_pc (s : State) (a : Alarm) : (s.setAlarm a).pc = s.pc := rfl
@[simp] theorem State.setAlarm_endCause (s : State) (a : Alarm) : (s.setAlarm a).endCause = s.endCause := rfl
@[simp] theorem State.setAlarm_result (s : State) (a : Alarm) : (s.setAlarm a).result = s.result := rfl
@[simp] theorem State.setAlarm_armed (s : State) (a : Alarm) : (s.setAlarm a).armed = s.armed := rfl
@[simp] theorem State.setAlarm_ie (s : State) (a : Alarm) : (s.setAlarm a).ie = s.ie := rfl
@[simp] theorem State.setAlarm_now (s : State) (a : Alarm) : (s.setAlarm a).now = s.now := rfl
@[simp] theorem State.setAlarm_alarm (s : State) (a : Alarm) : (s.setAlarm a).alarm = a := rfl
@[simp] theorem State.setAlarm_uartPending (s : State) (a : Alarm) : (s.setAlarm a).uartPending = s.uartPending := rfl
@[simp] theorem State.setAlarm_cmdPriv (s : State) (a : Alarm) : (s.setAlarm a).cmdPriv = s.cmdPriv := rfl
@[simp] theorem State.setAlarm_hist (s : State) (a : Alarm) : (s.setAlarm a).hist = s.hist := rfl
@[simp] theorem State.setAlarm_fault (s : State) (a : Alarm) : (s.setAlarm a).fault = s.fault := rfl
@[simp] theorem State.setAlarm_wsResult (s : State) (a : Alarm) : (s.setAlarm a).wsResult = s.wsResult := rfl
@[simp] theorem State.setAlarm_output (s : State) (a : Alarm) : (s.setAlarm a).output = s.output := rfl
@[simp] theorem State.setAlarm_turns (s : State) (a : Alarm) : (s.setAlarm a).turns = s.turns := rfl
@[simp] theorem State.setAlarm_turnNo (s : State) (a : Alarm) : (s.setAlarm a).turnNo = s.turnNo := rfl

/-! `State.setNow` -/

@[simp] theorem State.setNow_cfg (s : State) (t : Nat) : (s.setNow t).cfg = s.cfg := rfl
@[simp] theorem State.setNow_inputs (s : State) (t : Nat) : (s.setNow t).inputs = s.inputs := rfl
@[simp] theorem State.setNow_rb (s : State) (t : Nat) : (s.setNow t).rb = s.rb := rfl
@[simp] theorem State.setNow_hostInitDone (s : State) (t : Nat) : (s.setNow t).hostInitDone = s.hostInitDone := rfl
@[simp] theorem State.setNow_timedOut (s : State) (t : Nat) : (s.setNow t).timedOut = s.timedOut := rfl
@[simp] theorem State.setNow_expectedByteCount (s : State) (t : Nat) : (s.setNow t).expectedByteCount = s.expectedByteCount := rfl
@[simp] theorem State.setNow_staging (s : State) (t : Nat) : (s.setNow t).staging = s.staging := rfl
@[simp] theorem State.setNow_selectedCommand (s : State) (t : Nat) : (s.setNow t).selectedCommand = s.selectedCommand := rfl
@[simp] theorem State.setNow_stagedLen (s : State) (t : Nat) : (s.setNow t).stagedLen = s.stagedLen := rfl
@[simp] theorem State.setNow_pc (s : State) (t : Nat) : (s.setNow t).pc = s.pc := rfl
@[simp] theorem State.setNow_endCause (s : State) (t : Nat) : (s.setNow t).endCause = s.endCause := rfl
@[simp] theorem State.setNow_result (s : State) (t : Nat) : (s.setNow t).result = s.result := rfl
@[simp] theorem State.setNow_armed (s : State) (t : Nat) : (s.setNow t).armed = s.armed := rfl
@[simp] theorem State.setNow_ie (s : State) (t : Nat) : (s.setNow t).ie = s.ie := rfl
@[simp] theorem State.setNow_now (s : State) (t : Nat) : (s.setNow t).now = t := rfl
@[simp] theorem State.setNow_alarm (s : State) (t : Nat) : (s.setNow t).alarm = s.alarm := rfl
@[simp] theorem State.setNow_uartPending (s : State) (t : Nat) : (s.setNow t).uartPending = s.uartPending := rfl
@[simp] theorem State.setNow_cmdPriv (s : State) (t : Nat) : (s.setNow t).cmdPriv = s.cmdPriv := rfl
@[simp] theorem State.setNow_hist (s : State) (t : Nat) : (s.setNow t).hist = s.hist := rfl
@[simp] theorem State.setNow_fault (s : State) (t : Nat) : (s.setNow t).fault = s.fault := rfl
@[simp] theorem State.setNow_wsResult (s : State) (t : Nat) : (s.setNow t).wsResult = s.wsResult := rfl
@[simp] theorem State.setNow_output (s : State) (t : Nat) : (s.setNow t).output = s.output := rfl
@[simp] theorem State.setNow_turns (s : State) (t : Nat) : (s.setNow t).turns = s.turns := rfl
@[simp] theorem State.setNow_turnNo (s : State) (t : Nat) : (s.setNow t).turnNo = s.turnNo := rfl

/-! `State.setPending` -/

@[simp] theorem State.setPending_cfg (s : State) (bs : List Byte) : (s.setPending bs).cfg = s.cfg := rfl
@[simp] theorem State.setPending_inputs (s : State) (bs : List Byte) : (s.setPending bs).inputs = s.inputs := rfl
@[simp] theorem State.setPending_rb (s : State) (bs : List Byte) : (s.setPending bs).rb = s.rb := rfl
@[simp] theorem State.setPending_hostInitDone (s : State) (bs : List Byte) : (s.setPending bs).hostInitDone = s.hostInitDone := rfl
@[simp] theorem State.setPending_timedOut (s : State) (bs : List Byte) : (s.setPending bs).timedOut = s.timedOut := rfl
@[simp] theorem State.setPending_expectedByteCount (s : State) (bs : List Byte) : (s.setPending bs).expectedByteCount = s.expectedByteCount := rfl
@[simp] theorem State.setPending_staging (s : State) (bs : List Byte) : (s.setPending bs).staging = s.staging := rfl
@[simp] theorem State.setPending_selectedCommand (s : State) (bs : List Byte) : (s.setPending bs).selectedCommand = s.selectedCommand := rfl
@[simp] theorem State.setPending_stagedLen (s : State) (bs : List Byte) : (s.setPending bs).stagedLen = s.stagedLen := rfl
@[simp] theorem State.setPending_pc (s : State) (bs : List Byte) : (s.setPending bs).pc = s.pc := rfl
@[simp] theorem State.setPending_endCause (s : State) (bs : List Byte) : (s.setPending bs).endCause = s.endCause := rfl
@[simp] theorem State.setPending_result (s : State) (bs : List Byte) : (s.setPending bs).result = s.result := rfl
@[simp] theorem State.setPending_armed (s : State) (bs : List Byte) : (s.setPending bs).armed = s.armed := rfl
@[simp] theorem State.setPending_ie (s : State) (bs : List Byte) : (s.setPending bs).ie = s.ie := rfl
@[simp] theorem State.setPending_now (s : State) (bs : List Byte) : (s.setPending bs).now = s.now := rfl
@[simp] theorem State.setPending_alarm (s : State) (bs : List Byte) : (s.setPending bs).alarm = s.alarm := rfl
@[simp] theorem State.setPending_uartPending (s : State) (bs : List Byte) : (s.setPending bs).uartPending = bs := rfl
@[simp] theorem State.setPending_cmdPriv (s : State) (bs : List Byte) : (s.setPending bs).cmdPriv = s.cmdPriv := rfl
@[simp] theorem State.setPending_hist (s : State) (bs : List Byte) : (s.setPending bs).hist = s.hist := rfl
@[simp] theorem State.setPending_fault (s : State) (bs : List Byte) : (s.setPending bs).fault = s.fault := rfl
@[simp] theorem State.setPending_wsResult (s : State) (bs : List Byte) : (s.setPending bs).wsResult = s.wsResult := rfl
@[simp] theorem State.setPending_output (s : State) (bs : List Byte) : (s.setPending bs).output = s.output := rfl
@[simp] theorem State.setPending_turns (s : State) (bs : List Byte) : (s.setPending bs).turns = s.turns := rfl
@[simp] theorem State.setPending_turnNo (s : State) (bs : List Byte) : (s.setPending bs).turnNo = s.turnNo := rfl

/-! `State.setPriv` -/

@[simp] theorem State.setPriv_cfg (s : State) (v : List Byte) : (s.setPriv v).cfg = s.cfg := rfl
@[simp] theorem State.setPriv_inputs (s : State) (v : List Byte) : (s.setPriv v).inputs = s.inputs := rfl
@[simp] theorem State.setPriv_rb (s : State) (v : List Byte) : (s.setPriv v).rb = s.rb := rfl
@[simp] theorem State.setPriv_hostInitDone (s : State) (v : List Byte) : (s.setPriv v).hostInitDone = s.hostInitDone := rfl
@[simp] theorem State.setPriv_timedOut (s : State) (v : List Byte) : (s.setPriv v).timedOut = s.timedOut := rfl
@[simp] theorem State.setPriv_expectedByteCount (s : State) (v : List Byte) : (s.setPriv v).expectedByteCount = s.expectedByteCount := rfl
@[simp] theorem State.setPriv_staging (s : State) (v : List Byte) : (s.setPriv v).staging = s.staging := rfl
@[simp] theorem State.setPriv_selectedCommand (s : State) (v : List Byte) : (s.setPriv v).selectedCommand = s.selectedCommand := rfl
@[simp] theorem State.setPriv_stagedLen (s : State) (v : List Byte) : (s.setPriv v).stagedLen = s.stagedLen := rfl
@[simp] theorem State.setPriv_pc (s : State) (v : List Byte) : (s.setPriv v).pc = s.pc := rfl
@[simp] theorem State.setPriv_endCause (s : State) (v : List Byte) : (s.setPriv v).endCause = s.endCause := rfl
@[simp] theorem State.setPriv_result (s : State) (v : List Byte) : (s.setPriv v).result = s.result := rfl
@[simp] theorem State.setPriv_armed (s : State) (v : List Byte) : (s.setPriv v).armed = s.armed := rfl
@[simp] theorem State.setPriv_ie (s : State) (v : List Byte) : (s.setPriv v).ie = s.ie := rfl
@[simp] theorem State.setPriv_now (s : State) (v : List Byte) : (s.setPriv v).now = s.now := rfl
@[simp] theorem State.setPriv_alarm (s : State) (v : List Byte) : (s.setPriv v).alarm = s.alarm := rfl
@[simp] theorem State.setPriv_uartPending (s : State) (v : List Byte) : (s.setPriv v).uartPending = s.uartPending := rfl
@[simp] theorem State.setPriv_cmdPriv (s : State) (v : List Byte) : (s.setPriv v).cmdPriv = v := rfl
@[simp] theorem State.setPriv_hist (s : State) (v : List Byte) : (s.setPriv v).hist = s.hist := rfl
@[simp] theorem State.setPriv_fault (s : State) (v : List Byte) : (s.setPriv v).fault = s.fault := rfl
@[simp] theorem State.setPriv_wsResult (s : State) (v : List Byte) : (s.setPriv v).wsResult = s.wsResult := rfl
@[simp] theorem State.setPriv_output (s : State) (v : List Byte) : (s.setPriv v).output = s.output := rfl
@[simp] theorem State.setPriv_turns (s : State) (v : List Byte) : (s.setPriv v).turns = s.turns := rfl
@[simp] theorem State.setPriv_turnNo (s : State) (v : List Byte) : (s.setPriv v).turnNo = s.turnNo := rfl

/-! `State.setFault` -/

@[simp] theorem State.setFault_cfg (s : State) (r : Option Fault) : (s.setFault r).cfg = s.cfg := rfl
@[simp] theorem State.setFault_inputs (s : State) (r : Option Fault) : (s.setFault r).inputs = s.inputs := rfl
@[simp] theorem State.setFault_rb (s : State) (r : Option Fault) : (s.setFault r).rb = s.rb := rfl
@[simp] theorem State.setFault_hostInitDone (s : State) (r : Option Fault) : (s.setFault r).hostInitDone = s.hostInitDone := rfl
@[simp] theorem State.setFault_timedOut (s : State) (r : Option Fault) : (s.setFault r).timedOut = s.timedOut := rfl
@[simp] theorem State.setFault_expectedByteCount (s : State) (r : Option Fault) : (s.setFault r).expectedByteCount = s.expectedByteCount := rfl
@[simp] theorem State.setFault_staging (s : State) (r : Option Fault) : (s.setFault r).staging = s.staging := rfl
@[simp] theorem State.setFault_selectedCommand (s : State) (r : Option Fault) : (s.setFault r).selectedCommand = s.selectedCommand := rfl
@[simp] theorem State.setFault_stagedLen (s : State) (r : Option Fault) : (s.setFault r).stagedLen = s.stagedLen := rfl
@[simp] theorem State.setFault_pc (s : State) (r : Option Fault) : (s.setFault r).pc = s.pc := rfl
@[simp] theorem State.setFault_endCause (s : State) (r : Option Fault) : (s.setFault r).endCause = s.endCause := rfl
@[simp] theorem State.setFault_result (s : State) (r : Option Fault) : (s.setFault r).result = s.result := rfl
@[simp] theorem State.setFault_armed (s : State) (r : Option Fault) : (s.setFault r).armed = s.armed := rfl
@[simp] theorem State.setFault_ie (s : State) (r : Option Fault) : (s.setFault r).ie = s.ie := rfl
@[simp] theorem State.setFault_now (s : State) (r : Option Fault) : (s.setFault r).now = s.now := rfl
@[simp] theorem State.setFault_alarm (s : State) (r : Option Fault) : (s.setFault r).alarm = s.alarm := rfl
@[simp] theorem State.setFault_uartPending (s : State) (r : Option Fault) : (s.setFault r).uartPending = s.uartPending := rfl
@[simp] theorem State.setFault_cmdPriv (s : State) (r : Option Fault) : (s.setFault r).cmdPriv = s.cmdPriv := rfl
@[simp] theorem State.setFault_hist (s : State) (r : Option Fault) : (s.setFault r).hist = s.hist := rfl
@[simp] theorem State.setFault_fault (s : State) (r : Option Fault) : (s.setFault r).fault = r := rfl
@[simp] theorem State.setFault_wsResult (s : State) (r : Option Fault) : (s.setFault r).wsResult = s.wsResult := rfl
@[simp] theorem State.setFault_output (s : State) (r : Option Fault) : (s.setFault r).output = s.output := rfl
@[simp] theorem State.setFault_turns (s : State) (r : Option Fault) : (s.setFault r).turns = s.turns := rfl
@[simp] theorem State.setFault_turnNo (s : State) (r : Option Fault) : (s.setFault r).turnNo = s.turnNo := rfl

/-! `State.setWsResult` -/

@[simp] theorem State.setWsResult_cfg (s : State) (r : Option WsResult) : (s.setWsResult r).cfg = s.cfg := rfl
@[simp] theorem State.setWsResult_inputs (s : State) (r : Option WsResult) : (s.setWsResult r).inputs = s.inputs := rfl
@[simp] theorem State.setWsResult_rb (s : State) (r : Option WsResult) : (s.setWsResult r).rb = s.rb := rfl
@[simp] theorem State.setWsResult_hostInitDone (s : State) (r : Option WsResult) : (s.setWsResult r).hostInitDone = s.hostInitDone := rfl
@[simp] theorem State.setWsResult_timedOut (s : State) (r : Option WsResult) : (s.setWsResult r).timedOut = s.timedOut := rfl
@[simp] theorem State.setWsResult_expectedByteCount (s : State) (r : Option WsResult) : (s.setWsResult r).expectedByteCount = s.expectedByteCount := rfl
@[simp] theorem State.setWsResult_staging (s : State) (r : Option WsResult) : (s.setWsResult r).staging = s.staging := rfl
@[simp] theorem State.setWsResult_selectedCommand (s : State) (r : Option WsResult) : (s.setWsResult r).selectedCommand = s.selectedCommand := rfl
@[simp] theorem State.setWsResult_stagedLen (s : State) (r : Option WsResult) : (s.setWsResult r).stagedLen = s.stagedLen := rfl
@[simp] theorem State.setWsResult_pc (s : State) (r : Option WsResult) : (s.setWsResult r).pc = s.pc := rfl
@[simp] theorem State.setWsResult_endCause (s : State) (r : Option WsResult) : (s.setWsResult r).endCause = s.endCause := rfl
@[simp] theorem State.setWsResult_result (s : State) (r : Option WsResult) : (s.setWsResult r).result = s.result := rfl
@[simp] theorem State.setWsResult_armed (s : State) (r : Option WsResult) : (s.setWsResult r).armed = s.armed := rfl
@[simp] theorem State.setWsResult_ie (s : State) (r : Option WsResult) : (s.setWsResult r).ie = s.ie := rfl
@[simp] theorem State.setWsResult_now (s : State) (r : Option WsResult) : (s.setWsResult r).now = s.now := rfl
@[simp] theorem State.setWsResult_alarm (s : State) (r : Option WsResult) : (s.setWsResult r).alarm = s.alarm := rfl
@[simp] theorem State.setWsResult_uartPending (s : State) (r : Option WsResult) : (s.setWsResult r).uartPending = s.uartPending := rfl
@[simp] theorem State.setWsResult_cmdPriv (s : State) (r : Option WsResult) : (s.setWsResult r).cmdPriv = s.cmdPriv := rfl
@[simp] theorem State.setWsResult_hist (s : State) (r : Option WsResult) : (s.setWsResult r).hist = s.hist := rfl
@[simp] theorem State.setWsResult_fault (s : State) (r : Option WsResult) : (s.setWsResult r).fault = s.fault := rfl
@[simp] theorem State.setWsResult_wsResult (s : State) (r : Option WsResult) : (s.setWsResult r).wsResult = r := rfl
@[simp] theorem State.setWsResult_output (s : State) (r : Option WsResult) : (s.setWsResult r).output = s.output := rfl
@[simp] theorem State.setWsResult_turns (s : State) (r : Option WsResult) : (s.setWsResult r).turns = s.turns := rfl
@[simp] theorem State.setWsResult_turnNo (s : State) (r : Option WsResult) : (s.setWsResult r).turnNo = s.turnNo := rfl

/-! `State.setOutput` -/

@[simp] theorem State.setOutput_cfg (s : State) (o : Output) : (s.setOutput o).cfg = s.cfg := rfl
@[simp] theorem State.setOutput_inputs (s : State) (o : Output) : (s.setOutput o).inputs = s.inputs := rfl
@[simp] theorem State.setOutput_rb (s : State) (o : Output) : (s.setOutput o).rb = s.rb := rfl
@[simp] theorem State.setOutput_hostInitDone (s : State) (o : Output) : (s.setOutput o).hostInitDone = s.hostInitDone := rfl
@[simp] theorem State.setOutput_timedOut (s : State) (o : Output) : (s.setOutput o).timedOut = s.timedOut := rfl
@[simp] theorem State.setOutput_expectedByteCount (s : State) (o : Output) : (s.setOutput o).expectedByteCount = s.expectedByteCount := rfl
@[simp] theorem State.setOutput_staging (s : State) (o : Output) : (s.setOutput o).staging = s.staging := rfl
@[simp] theorem State.setOutput_selectedCommand (s : State) (o : Output) : (s.setOutput o).selectedCommand = s.selectedCommand := rfl
@[simp] theorem State.setOutput_stagedLen (s : State) (o : Output) : (s.setOutput o).stagedLen = s.stagedLen := rfl
@[simp] theorem State.setOutput_pc (s : State) (o : Output) : (s.setOutput o).pc = s.pc := rfl
@[simp] theorem State.setOutput_endCause (s : State) (o : Output) : (s.setOutput o).endCause = s.endCause := rfl
@[simp] theorem State.setOutput_result (s : State) (o : Output) : (s.setOutput o).result = s.result := rfl
@[simp] theorem State.setOutput_armed (s : State) (o : Output) : (s.setOutput o).armed = s.armed := rfl
@[simp] theorem State.setOutput_ie (s : State) (o : Output) : (s.setOutput o).ie = s.ie := rfl
@[simp] theorem State.setOutput_now (s : State) (o : Output) : (s.setOutput o).now = s.now := rfl
@[simp] theorem State.setOutput_alarm (s : State) (o : Output) : (s.setOutput o).alarm = s.alarm := rfl
@[simp] theorem State.setOutput_uartPending (s : State) (o : Output) : (s.setOutput o).uartPending = s.uartPending := rfl
@[simp] theorem State.setOutput_cmdPriv (s : State) (o : Output) : (s.setOutput o).cmdPriv = s.cmdPriv := rfl
@[simp] theorem State.setOutput_hist (s : State) (o : Output) : (s.setOutput o).hist = s.hist := rfl
@[simp] theorem State.setOutput_fault (s : State) (o : Output) : (s.setOutput o).fault = s.fault := rfl
@[simp] theorem State.setOutput_wsResult (s : State) (o : Output) : (s.setOutput o).wsResult = s.wsResult := rfl
@[simp] theorem State.setOutput_output (s : State) (o : Output) : (s.setOutput o).output = some o := rfl
@[simp] theorem State.setOutput_turns (s : State) (o : Output) : (s.setOutput o).turns = s.turns := rfl
@[simp] theorem State.setOutput_turnNo (s : State) (o : Output) : (s.setOutput o).turnNo = s.turnNo := rfl

/-! `State.setInputs` -/

@[simp] theorem State.setInputs_cfg (s : State) (x : StartInputs) : (s.setInputs x).cfg = s.cfg := rfl
@[simp] theorem State.setInputs_inputs (s : State) (x : StartInputs) : (s.setInputs x).inputs = x := rfl
@[simp] theorem State.setInputs_rb (s : State) (x : StartInputs) : (s.setInputs x).rb = s.rb := rfl
@[simp] theorem State.setInputs_hostInitDone (s : State) (x : StartInputs) : (s.setInputs x).hostInitDone = s.hostInitDone := rfl
@[simp] theorem State.setInputs_timedOut (s : State) (x : StartInputs) : (s.setInputs x).timedOut = s.timedOut := rfl
@[simp] theorem State.setInputs_expectedByteCount (s : State) (x : StartInputs) : (s.setInputs x).expectedByteCount = s.expectedByteCount := rfl
@[simp] theorem State.setInputs_staging (s : State) (x : StartInputs) : (s.setInputs x).staging = s.staging := rfl
@[simp] theorem State.setInputs_selectedCommand (s : State) (x : StartInputs) : (s.setInputs x).selectedCommand = s.selectedCommand := rfl
@[simp] theorem State.setInputs_stagedLen (s : State) (x : StartInputs) : (s.setInputs x).stagedLen = s.stagedLen := rfl
@[simp] theorem State.setInputs_pc (s : State) (x : StartInputs) : (s.setInputs x).pc = s.pc := rfl
@[simp] theorem State.setInputs_endCause (s : State) (x : StartInputs) : (s.setInputs x).endCause = s.endCause := rfl
@[simp] theorem State.setInputs_result (s : State) (x : StartInputs) : (s.setInputs x).result = s.result := rfl
@[simp] theorem State.setInputs_armed (s : State) (x : StartInputs) : (s.setInputs x).armed = s.armed := rfl
@[simp] theorem State.setInputs_ie (s : State) (x : StartInputs) : (s.setInputs x).ie = s.ie := rfl
@[simp] theorem State.setInputs_now (s : State) (x : StartInputs) : (s.setInputs x).now = s.now := rfl
@[simp] theorem State.setInputs_alarm (s : State) (x : StartInputs) : (s.setInputs x).alarm = s.alarm := rfl
@[simp] theorem State.setInputs_uartPending (s : State) (x : StartInputs) : (s.setInputs x).uartPending = s.uartPending := rfl
@[simp] theorem State.setInputs_cmdPriv (s : State) (x : StartInputs) : (s.setInputs x).cmdPriv = s.cmdPriv := rfl
@[simp] theorem State.setInputs_hist (s : State) (x : StartInputs) : (s.setInputs x).hist = s.hist := rfl
@[simp] theorem State.setInputs_fault (s : State) (x : StartInputs) : (s.setInputs x).fault = s.fault := rfl
@[simp] theorem State.setInputs_wsResult (s : State) (x : StartInputs) : (s.setInputs x).wsResult = s.wsResult := rfl
@[simp] theorem State.setInputs_output (s : State) (x : StartInputs) : (s.setInputs x).output = s.output := rfl
@[simp] theorem State.setInputs_turns (s : State) (x : StartInputs) : (s.setInputs x).turns = s.turns := rfl
@[simp] theorem State.setInputs_turnNo (s : State) (x : StartInputs) : (s.setInputs x).turnNo = s.turnNo := rfl

/-! `State.setTurns` -/

@[simp] theorem State.setTurns_cfg (s : State) (ts : List Turn) (n : Nat) : (s.setTurns ts n).cfg = s.cfg := rfl
@[simp] theorem State.setTurns_inputs (s : State) (ts : List Turn) (n : Nat) : (s.setTurns ts n).inputs = s.inputs := rfl
@[simp] theorem State.setTurns_rb (s : State) (ts : List Turn) (n : Nat) : (s.setTurns ts n).rb = s.rb := rfl
@[simp] theorem State.setTurns_hostInitDone (s : State) (ts : List Turn) (n : Nat) : (s.setTurns ts n).hostInitDone = s.hostInitDone := rfl
@[simp] theorem State.setTurns_timedOut (s : State) (ts : List Turn) (n : Nat) : (s.setTurns ts n).timedOut = s.timedOut := rfl
@[simp] theorem State.setTurns_expectedByteCount (s : State) (ts : List Turn) (n : Nat) : (s.setTurns ts n).expectedByteCount = s.expectedByteCount := rfl
@[simp] theorem State.setTurns_staging (s : State) (ts : List Turn) (n : Nat) : (s.setTurns ts n).staging = s.staging := rfl
@[simp] theorem State.setTurns_selectedCommand (s : State) (ts : List Turn) (n : Nat) : (s.setTurns ts n).selectedCommand = s.selectedCommand := rfl
@[simp] theorem State.setTurns_stagedLen (s : State) (ts : List Turn) (n : Nat) : (s.setTurns ts n).stagedLen = s.stagedLen := rfl
@[simp] theorem State.setTurns_pc (s : State) (ts : List Turn) (n : Nat) : (s.setTurns ts n).pc = s.pc := rfl
@[simp] theorem State.setTurns_endCause (s : State) (ts : List Turn) (n : Nat) : (s.setTurns ts n).endCause = s.endCause := rfl
@[simp] theorem State.setTurns_result (s : State) (ts : List Turn) (n : Nat) : (s.setTurns ts n).result = s.result := rfl
@[simp] theorem State.setTurns_armed (s : State) (ts : List Turn) (n : Nat) : (s.setTurns ts n).armed = s.armed := rfl
@[simp] theorem State.setTurns_ie (s : State) (ts : List Turn) (n : Nat) : (s.setTurns ts n).ie = s.ie := rfl
@[simp] theorem State.setTurns_now (s : State) (ts : List Turn) (n : Nat) : (s.setTurns ts n).now = s.now := rfl
@[simp] theorem State.setTurns_alarm (s : State) (ts : List Turn) (n : Nat) : (s.setTurns ts n).alarm = s.alarm := rfl
@[simp] theorem State.setTurns_uartPending (s : State) (ts : List Turn) (n : Nat) : (s.setTurns ts n).uartPending = s.uartPending := rfl
@[simp] theorem State.setTurns_cmdPriv (s : State) (ts : List Turn) (n : Nat) : (s.setTurns ts n).cmdPriv = s.cmdPriv := rfl
@[simp] theorem State.setTurns_hist (s : State) (ts : List Turn) (n : Nat) : (s.setTurns ts n).hist = s.hist := rfl
@[simp] theorem State.setTurns_fault (s : State) (ts : List Turn) (n : Nat) : (s.setTurns ts n).fault = s.fault := rfl
@[simp] theorem State.setTurns_wsResult (s : State) (ts : List Turn) (n : Nat) : (s.setTurns ts n).wsResult = s.wsResult := rfl
@[simp] theorem State.setTurns_output (s : State) (ts : List Turn) (n : Nat) : (s.setTurns ts n).output = s.output := rfl
@[simp] theorem State.setTurns_turns (s : State) (ts : List Turn) (n : Nat) : (s.setTurns ts n).turns = ts := rfl
@[simp] theorem State.setTurns_turnNo (s : State) (ts : List Turn) (n : Nat) : (s.setTurns ts n).turnNo = n := rfl

end Sys2Proof.Machine
end

