-- ==== Sys2Proof/Laws/Memory.lean ====
section
/-!
SUPPORT. Reading and writing one cell of a byte memory: read after write, and every write keeps the canonical form and
the address bound.
-/

namespace Sys2Proof.Machine

@[simp] theorem readCell_nil (i : Nat) : readCell [] i = none := rfl

@[simp] theorem readCell_writeCell_same (m : Mem) (i : Nat) (v : Byte) : readCell (writeCell m i v) i = some v := by
  induction m with
  | nil => simp [writeCell, readCell]
  | cons c m ih =>
    obtain ⟨a, b⟩ := c
    by_cases h1 : i < a
    · simp [writeCell, readCell, h1]
    · by_cases h2 : i = a
      · simp [writeCell, readCell, h2]
      · simp [writeCell, readCell, h1, h2, ih]

theorem readCell_writeCell_other (m : Mem) {i j : Nat} (v : Byte) (h : j ≠ i) :
    readCell (writeCell m i v) j = readCell m j := by
  induction m with
  | nil => simp [writeCell, readCell, h]
  | cons c m ih =>
    obtain ⟨a, b⟩ := c
    by_cases h1 : i < a
    · by_cases h3 : j < i
      · have : j < a := by omega
        have h4 : j ≠ a := by omega
        simp [writeCell, readCell, h1, h, h3, this, h4]
      · simp [writeCell, readCell, h1, h, h3]
    · by_cases h2 : i = a
      · subst h2
        simp [writeCell, readCell, h]
      · simp only [writeCell, h1, h2, if_false, readCell]
        rw [ih]

theorem readCell_writeCell (m : Mem) (i j : Nat) (v : Byte) :
    readCell (writeCell m i v) j = if j = i then some v else readCell m j := by
  split
  · next h => rw [h, readCell_writeCell_same]
  · next h => exact readCell_writeCell_other m v h

/-- A cell that held a byte still holds one after any write. -/
theorem isSome_writeCell {m : Mem} {j : Nat} (i : Nat) (v : Byte) (h : (readCell m j).isSome = true) :
    (readCell (writeCell m i v) j).isSome = true := by
  rw [readCell_writeCell]; split <;> simp [h]

/-- The canonical form of a list whose first address is above `a`. -/
theorem Mem.wf_cons_iff (a : Nat) (b : Byte) (m : Mem) :
    Mem.wf ((a, b) :: m) = true ↔ Mem.wf m = true ∧ ∀ c ∈ m.head?, a < c.1 := by
  cases m with
  | nil => simp [Mem.wf]
  | cons c m => obtain ⟨a', b'⟩ := c; simp [Mem.wf, and_comm]

theorem head_writeCell (m : Mem) (i : Nat) (v : Byte) :
    ∃ c, (writeCell m i v).head? = some c ∧ (c.1 = i ∨ ∃ d, m.head? = some d ∧ c.1 = d.1) := by
  cases m with
  | nil => exact ⟨(i, v), rfl, .inl rfl⟩
  | cons d m =>
    obtain ⟨a, b⟩ := d
    by_cases h1 : i < a
    · exact ⟨(i, v), by simp [writeCell, h1], .inl rfl⟩
    · by_cases h2 : i = a
      · exact ⟨(i, v), by simp [writeCell, h2], .inl rfl⟩
      · exact ⟨(a, b), by simp [writeCell, h1, h2], .inr ⟨(a, b), rfl, rfl⟩⟩

/-- A write keeps the canonical form. -/
theorem wf_writeCell {m : Mem} (i : Nat) (v : Byte) (h : Mem.wf m = true) : Mem.wf (writeCell m i v) = true := by
  induction m with
  | nil => rfl
  | cons c m ih =>
    obtain ⟨a, b⟩ := c
    obtain ⟨hm, hlt⟩ := (Mem.wf_cons_iff a b m).1 h
    by_cases h1 : i < a
    · simpa [writeCell, h1, Mem.wf] using h
    · by_cases h2 : i = a
      · subst h2
        simpa [writeCell] using (Mem.wf_cons_iff i v m).2 ⟨hm, hlt⟩
      · simp only [writeCell, h1, h2, if_false]
        refine (Mem.wf_cons_iff a b _).2 ⟨ih hm, fun c hc => ?_⟩
        obtain ⟨e, he, hor⟩ := head_writeCell m i v
        rw [he] at hc
        cases hc
        rcases hor with h3 | ⟨d, hd, h3⟩
        · omega
        · have := hlt d (by simp [hd]); omega

/-- A write below the bound keeps every address below it. -/
theorem below_writeCell {m : Mem} {bound i : Nat} (v : Byte) (hi : i < bound) (h : Mem.below bound m = true) :
    Mem.below bound (writeCell m i v) = true := by
  induction m with
  | nil => simp [writeCell, Mem.below, hi]
  | cons c m ih =>
    obtain ⟨a, b⟩ := c
    simp only [Mem.below, List.all_cons, Bool.and_eq_true, decide_eq_true_eq] at h ih
    by_cases h1 : i < a
    · simp [writeCell, h1, Mem.below, hi, h.1, h.2]
    · by_cases h2 : i = a
      · simp [writeCell, h2, Mem.below, h.2, h.1]
      · simp only [writeCell, h1, h2, if_false, Mem.below, List.all_cons, Bool.and_eq_true, decide_eq_true_eq]
        exact ⟨h.1, ih h.2⟩

/-- Reset's memories list nothing, so they are in canonical form. -/
theorem reset_memories_wf (p : Params) :
    Mem.wf (State.resetWith p).rb.buf = true ∧ Mem.wf (State.resetWith p).staging = true := ⟨rfl, rfl⟩

end Sys2Proof.Machine
end

