-- ==== Sys2Proof/Laws/Ops.lean ====
section
/-!
SUPPORT. One lemma per shared operation of Machine/Ops.lean that says what it can do, for the proofs to cite instead of
unfolding it.
-/

namespace Sys2Proof.Machine

/-! Sequencing. -/

@[simp] theorem Ran.andThen_ok (s : State) (f : State → Ran) : (Ran.ok s).andThen f = f s := rfl

@[simp] theorem Ran.andThen_raised (r : Fault) (s : State) (f : State → Ran) :
    (Ran.raised r s).andThen f = .raised r s := rfl

@[simp] theorem Ran.settle_ok (s : State) : (Ran.ok s).settle = .next s := rfl

@[simp] theorem Ran.settle_raised (r : Fault) (s : State) : (Ran.raised r s).settle = .next (s.setFault (some r)) := rfl

/-- A rule's pseudocode always answers a next state: the state it ends in, or that state with the raised fault. -/
theorem Ran.settle_cases {x : Ran} {o : Host.Outcome State Fault Refusal} (h : x.settle = o) :
    (∃ s, x = .ok s ∧ o = .next s) ∨ ∃ r s, x = .raised r s ∧ o = .next (s.setFault (some r)) := by
  cases x with
  | ok s => exact .inl ⟨s, rfl, h.symm⟩
  | raised r s => exact .inr ⟨r, s, rfl, h.symm⟩

/-- What holds of the state a rule's pseudocode ends in, whether or not it raised a fault. -/
def Ran.Ends (P : State → Prop) : Ran → Prop
  | .ok s => P s
  | .raised _ s => P s

theorem Ran.Ends.andThen {P Q : State → Prop} {x : Ran} {f : State → Ran} (hx : x.Ends P)
    (hf : ∀ s, P s → (f s).Ends Q) (hpq : ∀ s, P s → Q s) : (x.andThen f).Ends Q := by
  cases x with
  | ok s => exact hf s hx
  | raised r s => exact hpq s hx

/-! Accesses. -/

theorem memRead_ok_iff {bound : Nat} {m : Mem} {i : Nat} {b : Byte} :
    memRead bound m i = .ok b ↔ i < bound ∧ readCell m i = some b := by
  unfold memRead
  by_cases h : i < bound
  · simp only [h, if_true, true_and]
    cases hc : readCell m i with
    | none => simp
    | some v => simp
  · simp [h]

theorem memRead_error {bound : Nat} {m : Mem} {i : Nat} {r : Fault} (h : memRead bound m i = .error r) :
    (¬ i < bound ∧ r = .index) ∨ (i < bound ∧ readCell m i = none ∧ r = .unwrittenRead) := by
  unfold memRead at h
  by_cases hi : i < bound
  · simp only [hi, if_true] at h
    cases hc : readCell m i with
    | none => simp [hc] at h; exact .inr ⟨hi, rfl, h.symm⟩
    | some v => simp [hc] at h
  · simp [hi] at h; exact .inl ⟨hi, h.symm⟩

theorem ringWrite_inside {i : Nat} {s : State} (v : Byte) (h : i < s.cfg.capacity) :
    ringWrite i v s = .ok (s.setRing { s.rb with buf := writeCell s.rb.buf i v }) := by
  simp [ringWrite, h]

theorem ringWrite_outside {i : Nat} {s : State} (v : Byte) (h : ¬ i < s.cfg.capacity) :
    ringWrite i v s = .raised .index s := by
  simp [ringWrite, h]

theorem stagingWrite_inside {i : Nat} {s : State} (v : Byte) (h : i < s.cfg.stagingSize) :
    stagingWrite i v s = .ok (s.setStaging (writeCell s.staging i v)) := by
  simp [stagingWrite, h]

theorem stagingWrite_outside {i : Nat} {s : State} (v : Byte) (h : ¬ i < s.cfg.stagingSize) :
    stagingWrite i v s = .raised .index s := by
  simp [stagingWrite, h]

theorem request_inRange {n : Nat} {s : State} (h : n ≤ s.cfg.fmax) : request n s = .ok (s.setExpected n) := by
  simp [request, Nat.not_lt.2 h]

theorem request_outOfRange {n : Nat} {s : State} (h : s.cfg.fmax < n) : request n s = .raised .requestRange s := by
  simp [request, h]

/-- Reading `n` staging cells from `k` answers their bytes exactly when all of them can be read. -/
theorem stagingBytes_ok_iff {s : State} {n k : Nat} {bs : List Byte} :
    stagingBytes s n k = .ok bs ↔
      bs.length = n ∧ ∀ j (h : j < bs.length), stagingRead s (k + j) = .ok bs[j] := by
  induction n generalizing k bs with
  | zero =>
    simp only [stagingBytes, Except.ok.injEq]
    constructor
    · rintro rfl; simp
    · rintro ⟨h, -⟩; exact (List.length_eq_zero_iff.1 h).symm
  | succ n ih =>
    simp only [stagingBytes]
    constructor
    · intro h
      cases hb : stagingRead s k with
      | error r => simp [hb] at h
      | ok b =>
        cases hs : stagingBytes s n (k + 1) with
        | error r => simp [hb, hs] at h
        | ok cs =>
          simp only [hb, hs, Except.ok.injEq] at h
          subst h
          obtain ⟨hl, hj⟩ := ih.1 hs
          refine ⟨by simp [hl], fun j hlt => ?_⟩
          cases j with
          | zero => simpa using hb
          | succ j =>
            have := hj j (by simpa using hlt)
            rw [show k + (j + 1) = k + 1 + j by omega, this]
            simp
    · rintro ⟨hl, hj⟩
      cases bs with
      | nil => simp at hl
      | cons b cs =>
        have h0 := hj 0 (by simp)
        simp only [Nat.add_zero, List.getElem_cons_zero] at h0
        have hs : stagingBytes s n (k + 1) = .ok cs := by
          refine ih.2 ⟨by simpa using hl, fun j hlt => ?_⟩
          have := hj (j + 1) (by simpa using hlt)
          rw [show k + (j + 1) = k + 1 + j by omega] at this
          simpa using this
        simp [h0, hs]

/-- Staging cells that are inside the area and written can be read. -/
theorem stagingBytes_of_written {s : State} {n k : Nat} (hk : k + n ≤ s.cfg.stagingSize)
    (hw : ∀ j < n, (readCell s.staging (k + j)).isSome = true) : ∃ bs, stagingBytes s n k = .ok bs := by
  induction n generalizing k with
  | zero => exact ⟨[], rfl⟩
  | succ n ih =>
    obtain ⟨cs, hcs⟩ := ih (k := k + 1) (by omega) (fun j hj => by
      have := hw (j + 1) (by omega)
      rwa [show k + (j + 1) = k + 1 + j by omega] at this)
    obtain ⟨b, hb⟩ := Option.isSome_iff_exists.1 (hw 0 (by omega))
    have hr : stagingRead s k = .ok b := memRead_ok_iff.2 ⟨by omega, by simpa using hb⟩
    exact ⟨b :: cs, by simp [stagingBytes, hr, hcs]⟩

/-! The ring. -/

/-- What PUSH's effect can do (R63), all of it. -/
theorem pushByte_cases (b : Byte) (s : State) :
    ((s.pc = .idle ∨ s.pc = .entry) ∧ pushByte b s = .ok s) ∨
    (¬ (s.pc = .idle ∨ s.pc = .entry) ∧ s.rb.count < s.cfg.capacity ∧ s.rb.tail < s.cfg.capacity ∧
      pushByte b s = .ok (s.setRing { s.rb with
        buf := writeCell s.rb.buf s.rb.tail b
        tail := (s.rb.tail + 1) % s.cfg.capacity
        count := s.rb.count + 1 })) ∨
    (¬ (s.pc = .idle ∨ s.pc = .entry) ∧ ¬ s.rb.count < s.cfg.capacity ∧
      s.cfg.overflowPolicy = .overwriteOldest ∧ s.rb.tail < s.cfg.capacity ∧
      pushByte b s = .ok (s.setRing { s.rb with
        buf := writeCell s.rb.buf s.rb.tail b
        tail := (s.rb.tail + 1) % s.cfg.capacity
        head := (s.rb.tail + 1) % s.cfg.capacity
        ovf := s.rb.ovf + 1 })) ∨
    (¬ (s.pc = .idle ∨ s.pc = .entry) ∧ ¬ s.rb.count < s.cfg.capacity ∧
      s.cfg.overflowPolicy = .dropNewest ∧
      pushByte b s = .ok (s.setRing { s.rb with ovf := s.rb.ovf + 1 })) ∨
    (¬ (s.pc = .idle ∨ s.pc = .entry) ∧ ¬ s.rb.tail < s.cfg.capacity ∧ pushByte b s = .raised .index s) := by
  unfold pushByte
  by_cases h1 : s.pc = .idle ∨ s.pc = .entry
  · exact .inl ⟨h1, by simp [h1]⟩
  · by_cases h2 : s.rb.count < s.cfg.capacity
    · by_cases h3 : s.rb.tail < s.cfg.capacity
      · exact .inr (.inl ⟨h1, h2, h3, by simp [h1, h2, ringWrite_inside b h3]; rfl⟩)
      · exact .inr (.inr (.inr (.inr ⟨h1, h3, by simp [h1, h2, ringWrite_outside b h3]⟩)))
    · cases h4 : s.cfg.overflowPolicy with
      | dropNewest => exact .inr (.inr (.inr (.inl ⟨h1, h2, rfl, by simp [h1, h2]⟩)))
      | overwriteOldest =>
        by_cases h3 : s.rb.tail < s.cfg.capacity
        · exact .inr (.inr (.inl ⟨h1, h2, rfl, h3, by simp [h1, h2, ringWrite_inside b h3]; rfl⟩))
        · exact .inr (.inr (.inr (.inr ⟨h1, h3, by simp [h1, h2, ringWrite_outside b h3]⟩)))

/-- DRAIN's loop changes the staging area alone, in the range it copies to, whether or not it raises a fault. -/
theorem copyFrame_ends (n k : Nat) (s : State) :
    (copyFrame n k s).Ends fun t =>
      t = s.setStaging t.staging ∧ (Mem.wf s.staging = true → Mem.wf t.staging = true) ∧
      (Mem.below s.cfg.stagingSize s.staging = true → Mem.below s.cfg.stagingSize t.staging = true) ∧
      ∀ a, a < k ∨ k + n ≤ a → readCell t.staging a = readCell s.staging a := by
  induction n generalizing k s with
  | zero => exact ⟨rfl, id, id, fun _ _ => rfl⟩
  | succ n ih =>
    simp only [copyFrame]
    cases hr : ringRead s ((s.rb.head + k) % s.cfg.capacity) with
    | error r => exact ⟨rfl, id, id, fun _ _ => rfl⟩
    | ok b =>
      by_cases hk : k < s.cfg.stagingSize
      · simp only [stagingWrite_inside b hk, Ran.andThen_ok]
        have := ih (k + 1) (s.setStaging (writeCell s.staging k b))
        generalize copyFrame n (k + 1) (s.setStaging (writeCell s.staging k b)) = x at this ⊢
        have key : ∀ t, (t = (s.setStaging (writeCell s.staging k b)).setStaging t.staging ∧
            (Mem.wf (writeCell s.staging k b) = true → Mem.wf t.staging = true) ∧
            (Mem.below s.cfg.stagingSize (writeCell s.staging k b) = true →
              Mem.below s.cfg.stagingSize t.staging = true) ∧
            ∀ a, a < k + 1 ∨ k + 1 + n ≤ a → readCell t.staging a = readCell (writeCell s.staging k b) a) →
            (t = s.setStaging t.staging ∧ (Mem.wf s.staging = true → Mem.wf t.staging = true) ∧
            (Mem.below s.cfg.stagingSize s.staging = true → Mem.below s.cfg.stagingSize t.staging = true) ∧
            ∀ a, a < k ∨ k + (n + 1) ≤ a → readCell t.staging a = readCell s.staging a) := by
          rintro t ⟨h1, h2, h3, h4⟩
          refine ⟨h1, fun h => h2 (wf_writeCell k b h), fun h => h3 (below_writeCell b hk h), fun a ha => ?_⟩
          rw [h4 a (by omega), readCell_writeCell_other _ _ (by omega)]
        cases x with
        | ok t => exact key t this
        | raised r t => exact key t this
      · simp only [stagingWrite_outside b hk, Ran.andThen_raised]
        exact ⟨rfl, id, id, fun _ _ => rfl⟩

/-- DRAIN's loop runs through when the cells it reads hold bytes and the frame fits the staging area, and copies each of
them. -/
theorem copyFrame_ok (n k : Nat) (s : State) (hk : k + n ≤ s.cfg.stagingSize)
    (hr : ∀ j < n, (s.rb.head + (k + j)) % s.cfg.capacity < s.cfg.capacity ∧
      (readCell s.rb.buf ((s.rb.head + (k + j)) % s.cfg.capacity)).isSome = true) :
    ∃ t, copyFrame n k s = .ok t ∧
      ∀ j < n, readCell t.staging (k + j) = readCell s.rb.buf ((s.rb.head + (k + j)) % s.cfg.capacity) := by
  induction n generalizing k s with
  | zero => exact ⟨s, rfl, fun _ h => absurd h (by omega)⟩
  | succ n ih =>
    obtain ⟨hb, hs⟩ := hr 0 (by omega)
    simp only [Nat.add_zero] at hb hs
    obtain ⟨b, hv⟩ := Option.isSome_iff_exists.1 hs
    have hread : ringRead s ((s.rb.head + k) % s.cfg.capacity) = .ok b := memRead_ok_iff.2 ⟨hb, hv⟩
    obtain ⟨t, ht, hcells⟩ := ih (k + 1) (s.setStaging (writeCell s.staging k b)) (by simp; omega) (fun j hj => by
      have := hr (j + 1) (by omega)
      rwa [show k + (j + 1) = k + 1 + j by omega] at this)
    refine ⟨t, ?_, fun j hj => ?_⟩
    · simp only [copyFrame, hread, stagingWrite_inside b (show k < s.cfg.stagingSize by omega), Ran.andThen_ok, ht]
    · cases j with
      | zero =>
        have hend := copyFrame_ends n (k + 1) (s.setStaging (writeCell s.staging k b))
        rw [ht] at hend
        have := hend.2.2.2 k (.inl (by omega))
        simpa [hv] using this
      | succ j =>
        have := hcells j (by omega)
        rwa [show k + 1 + j = k + (j + 1) by omega] at this

/-! The session end and the parts of ENTRY. -/

/-- Every field after the EXIT sequence (R110). -/
theorem endSession_eq (c : Option EndCause) (s : State) :
    endSession c s =
      { s with
        alarm := if s.armed then { s.alarm with enabled := false } else s.alarm
        ie := if s.inputs.caps.irqGate then false else s.ie
        result := some (endResult c)
        hist := s.hist ++ (if s.armed then [Event.alarmDisable] else []) ++
          (if s.inputs.caps.irqGate then [Event.irqDisable] else []) ++ [Event.sessionRet (endResult c)]
        pc := .stopped } := by
  unfold endSession disarm irqDisable
  by_cases h1 : s.armed = true <;> by_cases h2 : s.inputs.caps.irqGate = true <;>
    simp [State.emit, State.setAlarm, State.setIe, State.setResult, State.setPc, h1, h2]

/-- Every field after ALARM_ARM (R73). -/
theorem arm_eq (t : Nat) (s : State) :
    arm t s = if t = 0 then { s with armed := false } else
      { s with
        armed := true
        alarm := ⟨some (s.now + t), true⟩
        hist := s.hist ++ [.getTime s.now, .setAlarm (s.now + t), .alarmEnable] } := by
  unfold arm
  split <;> simp [State.setArmed, State.emit, State.setAlarm]

/-! The work step. -/

/-- A work step's effects write the history, the frame size and `cmd.priv` alone, only add to the history, and keep the
frame size in range (R82, R84), whether or not they raise a fault. -/
def WorkFrame (s t : State) : Prop :=
  t = { s with expectedByteCount := t.expectedByteCount, cmdPriv := t.cmdPriv, hist := t.hist } ∧
    (∃ es, t.hist = s.hist ++ es) ∧
    (t.expectedByteCount = s.expectedByteCount ∨ t.expectedByteCount ≤ s.cfg.fmax)

theorem WorkFrame.refl (s : State) : WorkFrame s s := ⟨rfl, ⟨[], by simp⟩, .inl rfl⟩

theorem WorkFrame.trans {s t u : State} (h1 : WorkFrame s t) (h2 : WorkFrame t u) : WorkFrame s u := by
  obtain ⟨e1, ⟨x1, k1⟩, r1⟩ := h1
  obtain ⟨e2, ⟨x2, k2⟩, r2⟩ := h2
  refine ⟨?_, ⟨x1 ++ x2, by rw [k2, k1, List.append_assoc]⟩, ?_⟩
  · rw [e2]; simp only; rw [e1]
  · have hc : t.cfg = s.cfg := by rw [e1]
    rw [hc] at r2
    rcases r2 with r2 | r2
    · rw [r2]; exact r1
    · exact .inr r2

theorem applyEffect_ends (ctx : WorkContext) (e : Effect) (s : State) :
    (applyEffect ctx e s).Ends (WorkFrame s) := by
  cases e with
  | sendByte b => exact ⟨rfl, ⟨_, rfl⟩, .inl rfl⟩
  | feedWatchdog => exact ⟨rfl, ⟨_, rfl⟩, .inl rfl⟩
  | flash c => exact WorkFrame.refl s
  | log m =>
    simp only [applyEffect]
    split
    · exact ⟨rfl, ⟨_, rfl⟩, .inl rfl⟩
    · exact WorkFrame.refl s
  | request n =>
    simp only [applyEffect, request]
    split
    · exact WorkFrame.refl s
    · next h => exact ⟨rfl, ⟨[], by simp⟩, .inr (Nat.not_lt.1 h)⟩
  | setPriv v => exact ⟨rfl, ⟨[], by simp⟩, .inl rfl⟩
  | breach f => exact WorkFrame.refl s

theorem applyEffects_ends (ctx : WorkContext) (es : List Effect) (s : State) :
    (applyEffects ctx es s).Ends (WorkFrame s) := by
  induction es generalizing s with
  | nil => exact WorkFrame.refl s
  | cons e es ih =>
    refine Ran.Ends.andThen (applyEffect_ends ctx e s) (fun t ht => ?_) (fun t ht => ht)
    have := ih t
    cases h : applyEffects ctx es t with
    | ok u => rw [h] at this; exact ht.trans this
    | raised r u => rw [h] at this; exact ht.trans this

/-- A work step's effects raise no other fault than REQUEST_RANGE and CONTRACT (R82). -/
theorem applyEffects_raised {ctx : WorkContext} {es : List Effect} {s t : State} {r : Fault}
    (h : applyEffects ctx es s = .raised r t) : r = .requestRange ∨ r = .contract := by
  induction es generalizing s with
  | nil => simp [applyEffects] at h
  | cons e es ih =>
    simp only [applyEffects] at h
    cases hx : applyEffect ctx e s with
    | ok u => rw [hx] at h; exact ih h
    | raised q u =>
      rw [hx] at h
      simp only [Ran.andThen_raised, Ran.raised.injEq] at h
      rw [← h.1]
      cases e with
      | sendByte b => simp [applyEffect] at hx
      | feedWatchdog => simp [applyEffect] at hx
      | flash c => simp [applyEffect] at hx
      | log m =>
        simp only [applyEffect] at hx
        split at hx
        · cases hx
        · injection hx with h1; exact .inr h1.symm
      | request n =>
        simp only [applyEffect, request] at hx
        split at hx
        · injection hx with h1; exact .inl h1.symm
        · cases hx
      | setPriv v => simp [applyEffect] at hx
      | breach f => simp only [applyEffect] at hx; injection hx with h1; exact .inr h1.symm

end Sys2Proof.Machine
end

