-- ==== Sys2Proof/Laws/Step.lean ====
section
/-!
SUPPORT. What one step can do, said once: the turn is taken off, and then exactly one of the operations below runs at
its own control point, or an input arrives.
-/

namespace Sys2Proof.Machine

/-! Taking a turn changes nothing but the list of turns. -/

@[simp] theorem afterTurn_cfg (s : State) : (afterTurn s).cfg = s.cfg := by
  unfold afterTurn; split <;> rfl

@[simp] theorem afterTurn_inputs (s : State) : (afterTurn s).inputs = s.inputs := by
  unfold afterTurn; split <;> rfl

@[simp] theorem afterTurn_rb (s : State) : (afterTurn s).rb = s.rb := by
  unfold afterTurn; split <;> rfl

@[simp] theorem afterTurn_hostInitDone (s : State) : (afterTurn s).hostInitDone = s.hostInitDone := by
  unfold afterTurn; split <;> rfl

@[simp] theorem afterTurn_timedOut (s : State) : (afterTurn s).timedOut = s.timedOut := by
  unfold afterTurn; split <;> rfl

@[simp] theorem afterTurn_expectedByteCount (s : State) : (afterTurn s).expectedByteCount = s.expectedByteCount := by
  unfold afterTurn; split <;> rfl

@[simp] theorem afterTurn_staging (s : State) : (afterTurn s).staging = s.staging := by
  unfold afterTurn; split <;> rfl

@[simp] theorem afterTurn_selectedCommand (s : State) : (afterTurn s).selectedCommand = s.selectedCommand := by
  unfold afterTurn; split <;> rfl

@[simp] theorem afterTurn_stagedLen (s : State) : (afterTurn s).stagedLen = s.stagedLen := by
  unfold afterTurn; split <;> rfl

@[simp] theorem afterTurn_pc (s : State) : (afterTurn s).pc = s.pc := by
  unfold afterTurn; split <;> rfl

@[simp] theorem afterTurn_endCause (s : State) : (afterTurn s).endCause = s.endCause := by
  unfold afterTurn; split <;> rfl

@[simp] theorem afterTurn_result (s : State) : (afterTurn s).result = s.result := by
  unfold afterTurn; split <;> rfl

@[simp] theorem afterTurn_armed (s : State) : (afterTurn s).armed = s.armed := by
  unfold afterTurn; split <;> rfl

@[simp] theorem afterTurn_ie (s : State) : (afterTurn s).ie = s.ie := by
  unfold afterTurn; split <;> rfl

@[simp] theorem afterTurn_now (s : State) : (afterTurn s).now = s.now := by
  unfold afterTurn; split <;> rfl

@[simp] theorem afterTurn_alarm (s : State) : (afterTurn s).alarm = s.alarm := by
  unfold afterTurn; split <;> rfl

@[simp] theorem afterTurn_uartPending (s : State) : (afterTurn s).uartPending = s.uartPending := by
  unfold afterTurn; split <;> rfl

@[simp] theorem afterTurn_cmdPriv (s : State) : (afterTurn s).cmdPriv = s.cmdPriv := by
  unfold afterTurn; split <;> rfl

@[simp] theorem afterTurn_hist (s : State) : (afterTurn s).hist = s.hist := by
  unfold afterTurn; split <;> rfl

@[simp] theorem afterTurn_fault (s : State) : (afterTurn s).fault = s.fault := by
  unfold afterTurn; split <;> rfl

@[simp] theorem afterTurn_wsResult (s : State) : (afterTurn s).wsResult = s.wsResult := by
  unfold afterTurn; split <;> rfl

@[simp] theorem afterTurn_output (s : State) : (afterTurn s).output = s.output := by
  unfold afterTurn; split <;> rfl

/-! The predicates over a state's Booleans do not see the turns. -/

@[simp] theorem phase_afterTurn (s : State) : phase (afterTurn s) = phase s := by simp [phase]

@[simp] theorem stagingRead_afterTurn (s : State) (i : Nat) : stagingRead (afterTurn s) i = stagingRead s i := by
  simp [stagingRead]

theorem stagingBytes_afterTurn (s : State) (n k : Nat) : stagingBytes (afterTurn s) n k = stagingBytes s n k := by
  induction n generalizing k with
  | zero => rfl
  | succ n ih => simp [stagingBytes, ih]

@[simp] theorem stagedToken_afterTurn (s : State) : stagedToken (afterTurn s) = stagedToken s := by
  simp only [stagedToken, stagedFormat, phase_afterTurn, stagingBytes_afterTurn, afterTurn_stagedLen, afterTurn_cfg]

/-! What is fetched at DISPATCH. -/

/-- A staged token is the decoder's reading of the bytes the phase's format takes (R56). -/
theorem stagedToken_cases {s : State} {i : Instr} (h : stagedToken s = some i) :
    (phase s = .awaitingInit ∧ ∃ b, stagingRead s 0 = .ok b ∧ i = decodeW1 s.cfg b) ∨
    (phase s = .awaitingCommand ∧ ∃ o k, stagingRead s 0 = .ok o ∧ stagingRead s 1 = .ok k ∧
      i = decodeW2 s.cfg o k) ∨
    (phase s = .executingCommand ∧ ∃ bs, i = .subframe bs) := by
  unfold stagedToken stagedFormat at h
  cases hp : phase s <;> simp only [hp] at h
  case notStarted => cases h
  case sessionEnded => cases h
  case awaitingInit =>
    simp only [Format.size] at h
    cases hb : stagingBytes s 1 0 with
    | error r => simp [hb] at h
    | ok bs =>
      obtain ⟨hl, hr⟩ := stagingBytes_ok_iff.1 hb
      match bs, hl with
      | [b], _ =>
        simp only [hb, decode, Option.some.injEq] at h
        exact .inl ⟨rfl, b, by simpa using hr 0 (by simp), h.symm⟩
  case awaitingCommand =>
    simp only [Format.size, genericFrame, checksumSize] at h
    cases hb : stagingBytes s (1 + 1) 0 with
    | error r => simp [hb] at h
    | ok bs =>
      obtain ⟨hl, hr⟩ := stagingBytes_ok_iff.1 hb
      match bs, hl with
      | [o, k], _ =>
        simp only [hb, decode, Option.some.injEq] at h
        exact .inr (.inl ⟨rfl, o, k, by simpa using hr 0 (by simp), by simpa using hr 1 (by simp), h.symm⟩)
  case executingCommand =>
    cases hb : stagingBytes s (Format.w3 s.stagedLen).size 0 with
    | error r => simp [hb] at h
    | ok bs =>
      simp only [hb, decode] at h
      split at h
      · next heq =>
        split at heq
        · injection heq with h1; injection h1 with h2 h3
          injection h with h4
          exact .inr (.inr ⟨rfl, _, by rw [← h4, ← h2]⟩)
        · cases heq
      · cases h

/-- At DISPATCH, running the staged token is running DISPATCH. -/
theorem exec_stagedToken {s : State} {i : Instr} (hpc : s.pc = .dispatch) (h : stagedToken s = some i) :
    exec i s = exec .dispatch s := by
  rcases stagedToken_cases h with ⟨hp, b, hb, rfl⟩ | ⟨hp, o, k, ho, hk, rfl⟩ | ⟨hp, bs, rfl⟩
  · simp only [exec, execDispatch, hpc, if_true, dispatchHandler, hp, hb, decodeW1]
    by_cases h1 : b = s.cfg.initByte
    · simp [h1, execInit, dispatchIn, hpc, hp]
    · by_cases h2 : b = s.cfg.quitByte
      · subst h2
        simp [h1, execQuit, dispatchIn, hpc, hp]
      · simp [h1, h2, execNoise, dispatchIn, hpc, hp]
  · simp only [exec, execDispatch, hpc, if_true, dispatchHandler, hp, ho, hk, decodeW2]
    by_cases h1 : validate [o, k] = true
    · cases h2 : s.cfg.lookup o with
      | none => simp [h1, h2, execCmdUnsupported, dispatchIn, hpc, hp]
      | some d => simp [h1, h2, execCmdSelect, dispatchIn, hpc, hp]
    · simp [h1, execCmdBadsum, dispatchIn, hpc, hp]
  · simp only [exec, execDispatch, hpc, if_true, dispatchHandler, hp, execSubframe, dispatchIn]
    cases s.selectedCommand <;> simp

/-- What one step can be, in the turn `turn`, from the state `u` that turn has been taken off; only an expiry turn runs
ALARM_EXPIRE, and only with its callback installed. -/
inductive StepKind (turn : Turn) (u t : State) : Prop where
  | pass (h : t = u)
  | hostSends (bs : List Byte) (h : t = u.setPending (u.uartPending ++ bs))
  | platformEnables (h : t = u.setIe true)
  | platformSetsGate (b : Bool) (ht : turn = .platformSetsGate b) (hs : startable u = true) (h : t = u.setIe b)
  | platformSetsAlarm (a : Alarm) (hs : startable u = true) (h : t = u.setAlarm a)
  | entry (hpc : u.pc = .entry) (h : exec .entry u = .next t)
  | guard (hpc : u.pc = .guard) (h : exec .guard u = .next t)
  | wdg (hpc : u.pc = .wdg) (h : exec .wdg u = .next t)
  | avail (hpc : u.pc = .avail) (h : exec .avail u = .next t)
  | drain (hpc : u.pc = .drain) (h : exec (.drain u.expectedByteCount) u = .next t)
  | dispatch (hpc : u.pc = .dispatch) (h : exec .dispatch u = .next t)
  | wsDone (hpc : u.pc = .cmdWait) (hr : u.wsResult = some .done) (h : exec .wsDone u = .next t)
  | wsContinue (hpc : u.pc = .cmdWait) (hr : u.wsResult = some .cont) (h : exec .wsContinue u = .next t)
  | exit (hpc : u.pc = .exit) (h : exec (.exit u.endCause) u = .next t)
  | push (b : Byte) (h : exec (.push b) u = .next t)
  | tick (d : Nat) (h : exec (.tick d) u = .next t)
  | expire (ht : turn = .expire) (hc : callbackInstalled u = true) (h : exec .alarmExpire u = .next t)
  | workStep (op : Byte) (es : List Effect) (r : WsResult) (h : exec (.workStep op es r) u = .next t)
  | workSends (b : Byte) (hpc : u.pc = .cmdWait) (hr : u.wsResult = none) (h : exec (.txData b) u = .next t)
  | workRequests (n : Nat) (hpc : u.pc = .cmdWait) (hr : u.wsResult = none) (h : exec (.request n) u = .next t)
  | start (caps : Caps) (timeout chipId : Nat) (h : exec (.start caps timeout chipId) u = .next t)

/-- Everything a step can do when it answers a next state: the state was not faulted, and one kind of step ran. -/
theorem step_cases {s t : State} (h : step s = .next t) :
    s.fault = none ∧ StepKind (nextTurn s) (afterTurn s) t := by
  unfold step at h
  cases hf : s.fault with
  | some r => simp [hf] at h
  | none =>
    refine ⟨rfl, ?_⟩
    simp only [hf] at h
    cases ht : nextTurn s <;> simp only [ht, fetch] at h
    case engine =>
      cases hpc : s.pc <;> simp only [engineOp, afterTurn_pc, hpc, input] at h
      case idle => injection h with h; exact .pass h.symm
      case stopped => injection h with h; exact .pass h.symm
      case entry => exact .entry (by simp [hpc]) h
      case guard => exact .guard (by simp [hpc]) h
      case wdg => exact .wdg (by simp [hpc]) h
      case avail => exact .avail (by simp [hpc]) h
      case drain => exact .drain (by simp [hpc]) h
      case exit => exact .exit (by simp [hpc]) h
      case dispatch =>
        cases hk : stagedToken (afterTurn s) with
        | none => simp only [hk] at h; exact .dispatch (by simp [hpc]) h
        | some i =>
          simp only [hk] at h
          exact .dispatch (by simp [hpc]) (by rw [← exec_stagedToken (by simp [hpc]) hk]; exact h)
      case cmdWait =>
        cases hr : s.wsResult with
        | none => simp only [afterTurn_wsResult, hr] at h; injection h with h; exact .pass h.symm
        | some r =>
          cases r
          · simp only [afterTurn_wsResult, hr] at h; exact .wsDone (by simp [hpc]) (by simp [hr]) h
          · simp only [afterTurn_wsResult, hr] at h; exact .wsContinue (by simp [hpc]) (by simp [hr]) h
    case rx =>
      cases hb : (afterTurn s).uartPending with
      | nil => simp only [hb, List.head?_nil, Option.map_none, input] at h; injection h with h; exact .pass h.symm
      | cons b bs => simp only [hb, List.head?_cons, Option.map_some] at h; exact .push b h
    case tick d => exact .tick d h
    case expire =>
      by_cases hc : callbackInstalled (afterTurn s) = true
      · rw [if_pos hc] at h; exact .expire rfl hc h
      · rw [if_neg hc] at h; simp only [input] at h; injection h with h; exact .pass h.symm
    case work es r =>
      cases hs : s.selectedCommand with
      | none =>
        simp only [afterTurn_selectedCommand, hs, Option.map_none, input] at h
        injection h with h; exact .pass h.symm
      | some op =>
        simp only [afterTurn_selectedCommand, hs, Option.map_some] at h
        exact .workStep op es r h
    case workSends b =>
      by_cases hc : (afterTurn s).pc = .cmdWait ∧ (afterTurn s).wsResult = none
      · rw [if_pos hc] at h; exact .workSends b hc.1 hc.2 h
      · rw [if_neg hc] at h; simp only [input] at h; injection h with h; exact .pass h.symm
    case workRequests n =>
      by_cases hc : (afterTurn s).pc = .cmdWait ∧ (afterTurn s).wsResult = none
      · rw [if_pos hc] at h; exact .workRequests n hc.1 hc.2 h
      · rw [if_neg hc] at h; simp only [input] at h; injection h with h; exact .pass h.symm
    case start c t x => exact .start c t x h
    case hostSends bs => simp only [input] at h; injection h with h; exact .hostSends bs h.symm
    case platformEnables =>
      simp only [input] at h; injection h with h; exact .platformEnables h.symm
    case platformSetsGate b =>
      simp only [input] at h
      split at h <;> injection h with h
      · next hs => exact .platformSetsGate b rfl hs h.symm
      · exact .pass h.symm
    case platformSetsAlarm d e =>
      simp only [input] at h
      split at h <;> injection h with h
      · next hs => exact .platformSetsAlarm ⟨d, e⟩ hs h.symm
      · exact .pass h.symm

end Sys2Proof.Machine
end

