-- ==== Sys2Proof/Laws/Exec.lean ====
section
/-!
SUPPORT. What each operation that has several outcomes can do, one inversion lemma each: if it answers a next state,
that state is one of those listed.
-/

namespace Sys2Proof.Machine

/-! What the phase says of the session's fields (R25). -/

theorem initDone_of_awaitingInit {s : State} (h : phase s = .awaitingInit) : s.hostInitDone = false := by
  unfold phase at h
  cases hd : s.hostInitDone with
  | false => rfl
  | true => cases hs : s.selectedCommand <;> simp only [hd, hs, if_true] at h <;> split at h <;> cases h

theorem fields_of_awaitingCommand {s : State} (h : phase s = .awaitingCommand) :
    s.hostInitDone = true ∧ s.selectedCommand = none := by
  unfold phase at h
  cases hd : s.hostInitDone <;> cases hs : s.selectedCommand <;> simp [hd, hs] at h ⊢ <;> split at h <;> cases h

theorem fields_of_executingCommand {s : State} (h : phase s = .executingCommand) :
    s.hostInitDone = true ∧ s.selectedCommand.isSome = true := by
  unfold phase at h
  cases hd : s.hostInitDone <;> cases hs : s.selectedCommand <;> simp [hd, hs] at h ⊢ <;> split at h <;> cases h

/-- PUSH (R63). -/
theorem exec_push_cases {b : Byte} {s t : State} (h : exec (.push b) s = .next t) :
    (pushEnabled b s = false ∧ t = s) ∨
    (pushEnabled b s = true ∧ (s.pc = .idle ∨ s.pc = .entry) ∧ t = s.setPending s.uartPending.tail) ∨
    (pushEnabled b s = true ∧ ¬ (s.pc = .idle ∨ s.pc = .entry) ∧ s.rb.count < s.cfg.capacity ∧
      s.rb.tail < s.cfg.capacity ∧
      t = (s.setPending s.uartPending.tail).setRing { s.rb with
        buf := writeCell s.rb.buf s.rb.tail b
        tail := (s.rb.tail + 1) % s.cfg.capacity
        count := s.rb.count + 1 }) ∨
    (pushEnabled b s = true ∧ ¬ (s.pc = .idle ∨ s.pc = .entry) ∧ ¬ s.rb.count < s.cfg.capacity ∧
      s.cfg.overflowPolicy = .overwriteOldest ∧ s.rb.tail < s.cfg.capacity ∧
      t = (s.setPending s.uartPending.tail).setRing { s.rb with
        buf := writeCell s.rb.buf s.rb.tail b
        tail := (s.rb.tail + 1) % s.cfg.capacity
        head := (s.rb.tail + 1) % s.cfg.capacity
        ovf := s.rb.ovf + 1 }) ∨
    (pushEnabled b s = true ∧ ¬ (s.pc = .idle ∨ s.pc = .entry) ∧ ¬ s.rb.count < s.cfg.capacity ∧
      s.cfg.overflowPolicy = .dropNewest ∧
      t = (s.setPending s.uartPending.tail).setRing { s.rb with ovf := s.rb.ovf + 1 }) ∨
    (pushEnabled b s = true ∧ ¬ (s.pc = .idle ∨ s.pc = .entry) ∧ ¬ s.rb.tail < s.cfg.capacity ∧
      t = (s.setPending s.uartPending.tail).setFault (some .index)) := by
  simp only [exec, execPush] at h
  cases he : pushEnabled b s with
  | false => simp only [he] at h; injection h with h; exact .inl ⟨rfl, h.symm⟩
  | true =>
    simp only [he, if_true] at h
    have hc := pushByte_cases b (s.setPending s.uartPending.tail)
    rcases hc with ⟨h1, h2⟩ | ⟨h1, h2, h3, h4⟩ | ⟨h1, h2, h3, h4, h5⟩ | ⟨h1, h2, h3, h4⟩ | ⟨h1, h2, h3⟩
    · rw [h2] at h; injection h with h; exact .inr (.inl ⟨rfl, h1, h.symm⟩)
    · rw [h4] at h; injection h with h; exact .inr (.inr (.inl ⟨rfl, h1, h2, h3, h.symm⟩))
    · rw [h5] at h; injection h with h; exact .inr (.inr (.inr (.inl ⟨rfl, h1, h2, h3, h4, h.symm⟩)))
    · rw [h4] at h; injection h with h; exact .inr (.inr (.inr (.inr (.inl ⟨rfl, h1, h2, h3, h.symm⟩))))
    · rw [h3] at h; injection h with h; exact .inr (.inr (.inr (.inr (.inr ⟨rfl, h1, h2, h.symm⟩))))

/-- DRAIN (R64) at its control point. -/
theorem exec_drain_cases {n : Nat} {s t : State} (hpc : s.pc = .drain) (h : exec (.drain n) s = .next t) :
    (s.rb.count < n ∧ t = ((s.emit .irqDisable).setIe false).setFault (some .drainUnderflow)) ∨
    (n ≤ s.rb.count ∧ ∃ u, copyFrame n 0 (irqDisable s) = .ok u ∧
      t = ((irqEnable ((u.setRing { u.rb with
        head := (u.rb.head + n) % u.cfg.capacity, count := u.rb.count - n }).setStagedLen n)).setPc .dispatch)) ∨
    (n ≤ s.rb.count ∧ ∃ r u, copyFrame n 0 (irqDisable s) = .raised r u ∧ t = u.setFault (some r)) := by
  simp only [exec, execDrain, hpc, if_true, drainFrame] at h
  by_cases hc : s.rb.count < n
  · rw [if_pos (by simpa [irqDisable] using hc)] at h
    injection h with h
    exact .inl ⟨hc, h.symm⟩
  · rw [if_neg (by simpa [irqDisable] using hc)] at h
    cases hx : copyFrame n 0 (irqDisable s) with
    | ok u => rw [hx] at h; injection h with h; exact .inr (.inl ⟨Nat.not_lt.1 hc, u, rfl, h.symm⟩)
    | raised r u => rw [hx] at h; injection h with h; exact .inr (.inr ⟨Nat.not_lt.1 hc, r, u, rfl, h.symm⟩)

/-- DISPATCH (R93) at its control point. -/
theorem exec_dispatch_cases {s t : State} (hpc : s.pc = .dispatch) (h : exec .dispatch s = .next t) :
    (phase s = .awaitingInit ∧ stagingRead s 0 = .ok s.cfg.initByte ∧ genericFrame ≤ s.cfg.fmax ∧
      t = ((((s.setInitDone true).setExpected genericFrame).emit (.tx s.cfg.ackByte)).setPc .guard)) ∨
    (phase s = .awaitingInit ∧ stagingRead s 0 = .ok s.cfg.initByte ∧ s.cfg.fmax < genericFrame ∧
      t = (s.setInitDone true).setFault (some .requestRange)) ∨
    (phase s = .awaitingInit ∧ t = raiseEnd .quit s) ∨
    (phase s = .awaitingInit ∧ 1 ≤ s.cfg.fmax ∧ t = (s.setExpected 1).setPc .guard) ∨
    (phase s = .awaitingInit ∧ s.cfg.fmax < 1 ∧ t = s.setFault (some .requestRange)) ∨
    (phase s = .awaitingCommand ∧ t = raiseEnd .checksumFail (s.emit (.log .checksumFail))) ∨
    (phase s = .awaitingCommand ∧ t = raiseEnd .checksumFail s) ∨
    (phase s = .awaitingCommand ∧ t = raiseEnd .unsupported (s.emit (.tx s.cfg.nackByte))) ∨
    (phase s = .awaitingCommand ∧ ∃ o d, s.cfg.lookup o = some d ∧ d.extraFrameBytes ≤ s.cfg.fmax ∧
      t = ((s.setSelected (some o)).setExpected d.extraFrameBytes).setPc .guard) ∨
    (phase s = .awaitingCommand ∧ ∃ o d, s.cfg.lookup o = some d ∧ s.cfg.fmax < d.extraFrameBytes ∧
      t = (s.setSelected (some o)).setFault (some .requestRange)) ∨
    (phase s = .executingCommand ∧ ∃ op, s.selectedCommand = some op ∧
      t = ((s.emit (.workStep op)).setWsResult none).setPc .cmdWait) ∨
    (phase s = .awaitingInit ∧ ∃ r, stagingRead s 0 = .error r ∧ t = s.setFault (some r)) ∨
    (phase s = .awaitingCommand ∧ ∃ r, (stagingRead s 0 = .error r ∨ stagingRead s 1 = .error r) ∧
      t = s.setFault (some r)) := by
  simp only [exec, execDispatch, hpc, if_true, dispatchHandler] at h
  cases hp : phase s <;> simp only [hp] at h
  case notStarted => simp [phase, hpc] at hp; split at hp <;> (try split at hp) <;> simp at hp
  case sessionEnded => simp [phase, hpc] at hp; split at hp <;> (try split at hp) <;> simp at hp
  case awaitingInit =>
    cases hb : stagingRead s 0 with
    | error r => simp only [hb] at h; injection h with h; simp [h.symm]
    | ok b =>
      simp only [hb] at h
      by_cases h1 : b = s.cfg.initByte
      · subst h1
        simp only [if_true, initHandler] at h
        by_cases hr : genericFrame ≤ s.cfg.fmax
        · rw [request_inRange (by simpa using hr)] at h
          injection h with h
          exact .inl ⟨rfl, rfl, hr, h.symm⟩
        · rw [request_outOfRange (by simpa using Nat.not_le.1 hr)] at h
          injection h with h
          exact .inr (.inl ⟨rfl, rfl, Nat.not_le.1 hr, h.symm⟩)
      · by_cases h2 : b = s.cfg.quitByte
        · simp only [h2, if_true, quitHandler] at h
          rw [if_neg (fun hh => h1 (h2.trans hh))] at h
          injection h with h
          exact .inr (.inr (.inl ⟨rfl, h.symm⟩))
        · simp only [h1, if_false, h2, noiseHandler] at h
          by_cases hr : 1 ≤ s.cfg.fmax
          · rw [request_inRange hr] at h
            injection h with h
            exact .inr (.inr (.inr (.inl ⟨rfl, hr, h.symm⟩)))
          · rw [request_outOfRange (Nat.not_le.1 hr)] at h
            injection h with h
            exact .inr (.inr (.inr (.inr (.inl ⟨rfl, Nat.not_le.1 hr, h.symm⟩))))
  case awaitingCommand =>
    cases ho : stagingRead s 0 with
    | error r => simp only [ho] at h; injection h with h; simp [h.symm]
    | ok o =>
      cases hk : stagingRead s 1 with
      | error r => simp only [ho, hk] at h; injection h with h; simp [h.symm]
      | ok k =>
        simp only [ho, hk] at h
        by_cases h1 : validate [o, k] = true
        · simp only [h1] at h
          cases h2 : s.cfg.lookup o with
          | none => simp [h2, unsupportedHandler, sendByte] at h; simp [h.symm]
          | some d =>
            simp only [h2, selectHandler] at h
            by_cases hr : d.extraFrameBytes ≤ s.cfg.fmax
            · rw [if_neg (by simp), request_inRange (by simpa using hr)] at h
              injection h with h
              exact .inr (.inr (.inr (.inr (.inr (.inr (.inr (.inr (.inl ⟨rfl, o, d, h2, hr, h.symm⟩))))))))
            · rw [if_neg (by simp), request_outOfRange (by simpa using Nat.not_le.1 hr)] at h
              injection h with h
              exact .inr (.inr (.inr (.inr (.inr (.inr (.inr (.inr (.inr (.inl
                ⟨rfl, o, d, h2, Nat.not_le.1 hr, h.symm⟩)))))))))
        · simp only [h1, badsumHandler] at h
          by_cases hl : s.cfg.logEnabled = true
          · simp [hl] at h; simp [h.symm]
          · simp [hl] at h; simp [h.symm]
  case executingCommand =>
    cases ho : s.selectedCommand with
    | none => simp [phase, hpc, ho] at hp; split at hp <;> cases hp
    | some op =>
      simp only [ho, callWorkStep] at h
      injection h with h
      simp [h.symm]

/-- ENTRY (R126) at its control point. -/
theorem exec_entry_cases {s t : State} (hpc : s.pc = .entry) (h : exec .entry s = .next t) :
    (∃ c, s.cfg.cfgCheck s.inputs.caps s.inputs.timeout = some c ∧ t = raiseEnd c (entryClear s)) ∨
    (s.cfg.cfgCheck s.inputs.caps s.inputs.timeout = none ∧
      ((1 ≤ s.cfg.fmax ∧
        t = (arm s.inputs.timeout (((((((resetRing (entryClear s)).setInitDone false).setTimedOut false).setSelected
          none).setStagedLen 0).setStaging []).setExpected 1)).setPc .guard) ∨ s.cfg.fmax < 1)) := by
  simp only [exec, execEntry, hpc, if_true] at h
  cases hc : s.cfg.cfgCheck s.inputs.caps s.inputs.timeout with
  | some c => simp only [hc] at h; injection h with h; exact .inl ⟨c, rfl, h.symm⟩
  | none =>
    simp only [hc, entryInit] at h
    refine .inr ⟨rfl, ?_⟩
    by_cases hr : 1 ≤ s.cfg.fmax
    · rw [request_inRange (by simpa [entryClear, resetRing] using hr)] at h
      injection h with h
      exact .inl ⟨hr, h.symm⟩
    · exact .inr (Nat.not_le.1 hr)

/-- WORK_STEP (R82). -/
theorem exec_workStep_cases {op : Byte} {es : List Effect} {r : WsResult} {s t : State}
    (h : exec (.workStep op es r) s = .next t) :
    t = s ∨
    (working op s = true ∧ ∃ u, WorkFrame s u ∧ t = u.setWsResult (some r)) ∨
    (working op s = true ∧ ∃ u f, WorkFrame s u ∧ t = u.setFault (some f) ∧
      (f = .requestRange ∨ f = .contract ∨ stagingBytes s s.stagedLen 0 = .error f)) := by
  simp only [exec, execWorkStep] at h
  cases hw : working op s && (s.cfg.lookup op).isSome with
  | false => simp only [hw] at h; injection h with h; exact .inl h.symm
  | true =>
    simp only [hw, if_true, workContext] at h
    rw [Bool.and_eq_true] at hw
    cases hb : stagingBytes s s.stagedLen 0 with
    | error f =>
      simp only [hb] at h
      injection h with h
      exact .inr (.inr ⟨hw.1, s, f, WorkFrame.refl s, h.symm, .inr (.inr rfl)⟩)
    | ok frame =>
      simp only [hb] at h
      generalize hctx : WorkContext.mk op frame s.stagedLen s.inputs.chipId s.inputs.caps.log = ctx at h
      have he := applyEffects_ends ctx es s
      cases hx : applyEffects ctx es s with
      | ok u =>
        rw [hx] at h he
        injection h with h
        exact .inr (.inl ⟨hw.1, u, he, h.symm⟩)
      | raised f u =>
        have hr := applyEffects_raised hx
        rw [hx] at h he
        injection h with h
        exact .inr (.inr ⟨hw.1, u, f, he, h.symm, hr.elim .inl (fun h => .inr (.inl h))⟩)

/-- START (R126) answers a next state. -/
theorem exec_start_cases {c : Caps} {n x : Nat} {s t : State} (h : exec (.start c n x) s = .next t) :
    (startable s = true ∧ t = (s.setInputs ⟨c, n, x⟩).setPc .entry) ∨ t = s := by
  simp only [exec, execStart] at h
  cases hs : startable s with
  | false => simp only [hs] at h; injection h with h; exact .inr h.symm
  | true =>
    simp only [hs, if_true] at h
    split at h
    · cases h
    · injection h with h; exact .inl ⟨rfl, h.symm⟩

end Sys2Proof.Machine
end

