-- ==== Sys2Proof/Laws/Moves.lean ====
section
/-!
SUPPORT. What one step can do, with every next state written out: a proof that every step keeps a property is one case
per constructor of `Move`.
-/

namespace Sys2Proof.Machine

/-- What a passed configuration check says of the frame sizes (R127). -/
theorem frames_fit_of_cfgCheck {p : Params} {caps : Caps} {timeout : Nat} (h : p.cfgCheck caps timeout = none) :
    genericFrame ≤ p.fmax ∧ ∀ o d, p.lookup o = some d → d.extraFrameBytes ≤ p.fmax := by
  unfold Params.cfgCheck at h
  split at h
  · cases h
  split at h
  · cases h
  split at h
  · cases h
  split at h
  · cases h
  split at h
  · cases h
  next h1 h2 =>
    refine ⟨Nat.not_lt.1 h1, fun o d hl => ?_⟩
    simp [Params.descriptors] at h2
    have ho : d.opcode = o := by simpa using List.find?_some hl
    exact h2 d (List.mem_of_find?_eq_some hl) (by rw [ho]; exact hl)

/-- Every state a step can lead to, given outright: `s` is the state whose turn `turn` has been taken off. -/
inductive Move (turn : Turn) (s t : State) : Prop where
  | same (h : t = s)
  | pend (bs : List Byte) (h : t = s.setPending bs)
  | ie (h : t = s.setIe true)
  | gate (b : Bool) (ht : turn = .platformSetsGate b) (hs : s.pc = .idle ∨ s.pc = .stopped) (h : t = s.setIe b)
  | alarm (a : Alarm) (hs : s.pc = .idle ∨ s.pc = .stopped) (h : t = s.setAlarm a)
  | entryErr (c : EndCause) (hpc : s.pc = .entry) (h : t = raiseEnd c (entryClear s))
  | entryOk (hpc : s.pc = .entry) (hc : s.cfg.cfgCheck s.inputs.caps s.inputs.timeout = none)
      (h : t = (arm s.inputs.timeout (((((((resetRing (entryClear s)).setInitDone false).setTimedOut
        false).setSelected none).setStagedLen 0).setStaging []).setExpected 1)).setPc .guard)
  | guardEnd (hpc : s.pc = .guard) (h1 : s.hostInitDone = false) (h : t = raiseEnd .timeout s)
  | guard (hpc : s.pc = .guard) (h : t = s.setPc .wdg)
  | wdg (hpc : s.pc = .wdg) (h : t = (s.emit .wdgFeed).setPc .avail)
  | spin (hpc : s.pc = .avail) (h : t = s.setPc .guard)
  | avail (hpc : s.pc = .avail) (h1 : s.expectedByteCount ≤ s.rb.count) (h : t = s.setPc .drain)
  | drainUnder (hpc : s.pc = .drain) (h1 : s.rb.count < s.expectedByteCount)
      (h : t = ((s.emit .irqDisable).setIe false).setFault (some .drainUnderflow))
  | drainOk (m : Mem) (hpc : s.pc = .drain) (h1 : s.expectedByteCount ≤ s.rb.count)
      (hm : copyFrame s.expectedByteCount 0 (irqDisable s) = .ok ((irqDisable s).setStaging m))
      (h : t = ((irqEnable ((((irqDisable s).setStaging m).setRing { s.rb with
        head := (s.rb.head + s.expectedByteCount) % s.cfg.capacity
        count := s.rb.count - s.expectedByteCount }).setStagedLen s.expectedByteCount)).setPc .dispatch))
  | drainErr (m : Mem) (r : Fault) (hpc : s.pc = .drain) (h1 : s.expectedByteCount ≤ s.rb.count)
      (hm : copyFrame s.expectedByteCount 0 (irqDisable s) = .raised r ((irqDisable s).setStaging m))
      (h : t = ((irqDisable s).setStaging m).setFault (some r))
  | init (hpc : s.pc = .dispatch) (hp : phase s = .awaitingInit) (hr : stagingRead s 0 = .ok s.cfg.initByte)
      (hf : genericFrame ≤ s.cfg.fmax)
      (h : t = ((((s.setInitDone true).setExpected genericFrame).emit (.tx s.cfg.ackByte)).setPc .guard))
  | initErr (hpc : s.pc = .dispatch) (hp : phase s = .awaitingInit) (hr : stagingRead s 0 = .ok s.cfg.initByte)
      (hf : s.cfg.fmax < genericFrame) (h : t = (s.setInitDone true).setFault (some .requestRange))
  | quit (hpc : s.pc = .dispatch) (hp : phase s = .awaitingInit) (h : t = raiseEnd .quit s)
  | noise (hpc : s.pc = .dispatch) (hp : phase s = .awaitingInit) (hf : 1 ≤ s.cfg.fmax)
      (h : t = (s.setExpected 1).setPc .guard)
  | noiseErr (hpc : s.pc = .dispatch) (hp : phase s = .awaitingInit) (hf : s.cfg.fmax < 1)
      (h : t = s.setFault (some .requestRange))
  | cmdEnd (c : EndCause) (e : Event) (hpc : s.pc = .dispatch) (hp : phase s = .awaitingCommand)
      (h : t = raiseEnd c (s.emit e))
  | cmdEndSilent (c : EndCause) (hpc : s.pc = .dispatch) (hp : phase s = .awaitingCommand) (h : t = raiseEnd c s)
  | sel (o : Byte) (d : Descriptor) (hpc : s.pc = .dispatch) (hp : phase s = .awaitingCommand)
      (hl : s.cfg.lookup o = some d) (hf : d.extraFrameBytes ≤ s.cfg.fmax)
      (h : t = ((s.setSelected (some o)).setExpected d.extraFrameBytes).setPc .guard)
  | selErr (o : Byte) (d : Descriptor) (hpc : s.pc = .dispatch) (hp : phase s = .awaitingCommand)
      (hl : s.cfg.lookup o = some d) (hf : s.cfg.fmax < d.extraFrameBytes)
      (h : t = (s.setSelected (some o)).setFault (some .requestRange))
  | call (op : Byte) (hpc : s.pc = .dispatch) (hp : phase s = .executingCommand) (hs : s.selectedCommand = some op)
      (h : t = ((s.emit (.workStep op)).setWsResult none).setPc .cmdWait)
  | readErrInit (r : Fault) (hpc : s.pc = .dispatch) (hp : phase s = .awaitingInit)
      (hr : stagingRead s 0 = .error r) (h : t = s.setFault (some r))
  | readErrCommand (r : Fault) (hpc : s.pc = .dispatch) (hp : phase s = .awaitingCommand)
      (hr : stagingRead s 0 = .error r ∨ stagingRead s 1 = .error r) (h : t = s.setFault (some r))
  | done (hpc : s.pc = .cmdWait) (hr : s.wsResult = some .done) (hf : genericFrame ≤ s.cfg.fmax)
      (h : t = ((((s.emit (.wsRet .done)).setWsResult none).setSelected none).setExpected genericFrame).setPc .guard)
  | doneErr (hpc : s.pc = .cmdWait) (hr : s.wsResult = some .done) (hf : s.cfg.fmax < genericFrame)
      (h : t = (((s.emit (.wsRet .done)).setWsResult none).setSelected none).setFault (some .requestRange))
  | cont (hpc : s.pc = .cmdWait) (hr : s.wsResult = some .cont)
      (h : t = ((s.emit (.wsRet .cont)).setWsResult none).setPc .guard)
  | exit (hpc : s.pc = .exit) (h : t = endSession s.endCause s)
  | push (b : Byte) (bs : List Byte) (hi : ¬ (s.pc = .idle ∨ s.pc = .entry ∨ s.pc = .stopped))
      (hc : s.rb.count < s.cfg.capacity) (ht : s.rb.tail < s.cfg.capacity)
      (h : t = (s.setPending bs).setRing { s.rb with
        buf := writeCell s.rb.buf s.rb.tail b
        tail := (s.rb.tail + 1) % s.cfg.capacity
        count := s.rb.count + 1 })
  | pushOver (b : Byte) (bs : List Byte) (hi : ¬ (s.pc = .idle ∨ s.pc = .entry ∨ s.pc = .stopped))
      (hc : ¬ s.rb.count < s.cfg.capacity) (ht : s.rb.tail < s.cfg.capacity)
      (h : t = (s.setPending bs).setRing { s.rb with
        buf := writeCell s.rb.buf s.rb.tail b
        tail := (s.rb.tail + 1) % s.cfg.capacity
        head := (s.rb.tail + 1) % s.cfg.capacity
        ovf := s.rb.ovf + 1 })
  | pushDrop (bs : List Byte) (v : BitVec 32) (h : t = (s.setPending bs).setRing { s.rb with ovf := v })
  | pushErr (bs : List Byte) (ht : ¬ s.rb.tail < s.cfg.capacity)
      (h : t = (s.setPending bs).setFault (some .index))
  | tick (n : Nat) (h : t = s.setNow n)
  | expire (ht : turn = .expire) (hi : s.pc = .idle ∨ s.inputs.timeout ≠ 0) (he : expireEnabled s = true)
      (h : t = (s.setTimedOut true).setAlarm { s.alarm with enabled := false })
  | work (u : State) (r : WsResult) (hpc : s.pc = .cmdWait) (hr : s.wsResult = none) (hw : WorkFrame s u)
      (h : t = u.setWsResult (some r))
  | workErr (u : State) (f : Fault) (hpc : s.pc = .cmdWait) (hr : s.wsResult = none) (hw : WorkFrame s u)
      (hf : f = .requestRange ∨ f = .contract ∨ stagingBytes s s.stagedLen 0 = .error f)
      (h : t = u.setFault (some f))
  | tx (e : Event) (hpc : s.pc = .cmdWait) (h : t = s.emit e)
  | req (n : Nat) (hpc : s.pc = .cmdWait) (hf : n ≤ s.cfg.fmax) (h : t = s.setExpected n)
  | reqErr (hpc : s.pc = .cmdWait) (h : t = s.setFault (some .requestRange))
  | start (x : StartInputs) (hs : s.pc = .idle ∨ s.pc = .stopped) (h : t = (s.setInputs x).setPc .entry)

/-- DRAIN's loop changes the staging area alone. -/
theorem copyFrame_ends_staging (n k : Nat) (s : State) :
    (copyFrame n k s).Ends fun t => t = s.setStaging t.staging := by
  have := copyFrame_ends n k s
  revert this; cases copyFrame n k s <;> exact fun h => h.1

theorem move_of_stepKind {turn : Turn} {s t : State} (h : StepKind turn s t) : Move turn s t := by
  cases h with
  | pass h => exact .same h
  | hostSends bs h => exact .pend _ h
  | platformEnables h => exact .ie h
  | platformSetsGate b ht hs h => exact .gate b ht (by simpa [startable] using hs) h
  | platformSetsAlarm a hs h => exact .alarm a (by simpa [startable] using hs) h
  | entry hpc h =>
    rcases exec_entry_cases hpc h with ⟨c, -, h⟩ | ⟨hc, ⟨-, h⟩ | h⟩
    · exact .entryErr c hpc h
    · exact .entryOk hpc hc h
    · have := (frames_fit_of_cfgCheck hc).1; have : 1 < genericFrame := by decide
      omega
  | guard hpc h =>
    simp only [exec, execGuard, hpc, if_true] at h
    by_cases hh : guardHolds s = true
    · rw [if_pos hh] at h; injection h with h; exact .guard hpc h.symm
    · rw [if_neg hh] at h; injection h with h; simp [guardHolds] at hh; exact .guardEnd hpc hh.2 h.symm
  | wdg hpc h => simp only [exec, execWdg, hpc, if_true] at h; injection h with h; exact .wdg hpc h.symm
  | avail hpc h =>
    simp only [exec, execAvail, hpc, if_true] at h
    split at h <;> injection h with h
    · exact .spin hpc h.symm
    · next hh => exact .avail hpc (by omega) h.symm
  | drain hpc h =>
    rcases exec_drain_cases hpc h with ⟨h1, h⟩ | ⟨h1, u, hu, h⟩ | ⟨h1, r, u, hu, h⟩
    · exact .drainUnder hpc h1 h
    · have := copyFrame_ends_staging s.expectedByteCount 0 (irqDisable s)
      rw [hu] at this; simp only [Ran.Ends] at this
      rw [this] at hu h
      exact .drainOk u.staging hpc h1 hu h
    · have := copyFrame_ends_staging s.expectedByteCount 0 (irqDisable s)
      rw [hu] at this; simp only [Ran.Ends] at this
      rw [this] at hu h
      exact .drainErr u.staging r hpc h1 hu h
  | dispatch hpc h =>
    rcases exec_dispatch_cases hpc h with ⟨a, b, c, h⟩ | ⟨a, b, c, h⟩ | ⟨a, h⟩ | ⟨a, b, h⟩ | ⟨a, b, h⟩ |
      ⟨a, h⟩ | ⟨a, h⟩ | ⟨a, h⟩ | ⟨a, o, d, b, c, h⟩ | ⟨a, o, d, b, c, h⟩ | ⟨a, op, b, h⟩ | ⟨a, r, b, h⟩ | ⟨a, r, b, h⟩
    · exact .init hpc a b c h
    · exact .initErr hpc a b c h
    · exact .quit hpc a h
    · exact .noise hpc a b h
    · exact .noiseErr hpc a b h
    · exact .cmdEnd _ _ hpc a h
    · exact .cmdEndSilent _ hpc a h
    · exact .cmdEnd _ _ hpc a h
    · exact .sel o d hpc a b c h
    · exact .selErr o d hpc a b c h
    · exact .call op hpc a b h
    · exact .readErrInit r hpc a b h
    · exact .readErrCommand r hpc a b h
  | wsDone hpc hr h =>
    simp only [exec, execWsDone, hpc, hr, and_self, if_true] at h
    by_cases hf : genericFrame ≤ s.cfg.fmax
    · rw [request_inRange (by simpa using hf)] at h; injection h with h; exact .done hpc hr hf h.symm
    · rw [request_outOfRange (by simpa using Nat.not_le.1 hf)] at h
      injection h with h; exact .doneErr hpc hr (Nat.not_le.1 hf) h.symm
  | wsContinue hpc hr h =>
    simp only [exec, execWsContinue, hpc, hr, and_self, if_true] at h
    injection h with h; exact .cont hpc hr h.symm
  | exit hpc h => simp only [exec, execExit, hpc, if_true] at h; injection h with h; exact .exit hpc h.symm
  | push b h =>
    rcases exec_push_cases h with ⟨-, h⟩ | ⟨-, -, h⟩ | ⟨a, b, c, d, h⟩ | ⟨a, b, c, -, d, h⟩ |
      ⟨-, b, c, -, h⟩ | ⟨-, b, c, h⟩
    · exact .same h
    · exact .pend _ h
    · exact .push _ _ (by simp [pushEnabled] at a; simp [a.2] at b ⊢; exact b) c d h
    · exact .pushOver _ _ (by simp [pushEnabled] at a; simp [a.2] at b ⊢; exact b) c d h
    · exact .pushDrop _ _ h
    · exact .pushErr _ c h
  | tick d h => injection h with h; exact .tick _ h.symm
  | expire ht hc h =>
    simp only [exec, execAlarmExpire] at h
    split at h <;> injection h with h
    · next he => exact .expire ht (by simpa [callbackInstalled] using hc) he h.symm
    · exact .same h.symm
  | workStep op es r h =>
    rcases exec_workStep_cases h with h | ⟨hw, u, hu, h⟩ | ⟨hw, u, f, hu, h, hf⟩
    · exact .same h
    · simp [working] at hw; exact .work u r hw.1.1 hw.2 hu h
    · simp [working] at hw; exact .workErr u f hw.1.1 hw.2 hu hf h
  | workSends b hpc hr h => injection h with h; exact .tx _ hpc h.symm
  | workRequests n hpc hr h =>
    simp only [exec, execRequest] at h
    by_cases hf : n ≤ s.cfg.fmax
    · rw [request_inRange hf] at h; injection h with h; exact .req n hpc hf h.symm
    · rw [request_outOfRange (Nat.not_le.1 hf)] at h; injection h with h; exact .reqErr hpc h.symm
  | start c n x h =>
    rcases exec_start_cases h with ⟨hs, h⟩ | h
    · exact .start _ (by simpa [startable] using hs) h
    · exact .same h


/-- Everything a step can do when it answers a next state. -/
theorem move_of_step {s t : State} (h : step s = .next t) : s.fault = none ∧ Move (nextTurn s) (afterTurn s) t :=
  ⟨(step_cases h).1, move_of_stepKind (step_cases h).2⟩

end Sys2Proof.Machine
end

