-- ==== Sys2Proof/Laws/PerInstr.lean ====
section
/-!
SUPPORT. Statements made per instruction: one lemma per constructor.
-/

namespace Sys2Proof.Laws.EncodedLength

/-- 30_encoding.md sections 1 and 2: an operation has a format exactly when it has bytes, and it has as many bytes as its
format's frame. -/
def Statement (i : Instr) : Prop :=
  ∀ p : Params, (encode p i).map List.length = (formatOf i).map Format.size

theorem init : Statement .init := fun _ => rfl
theorem quit : Statement .quit := fun _ => rfl
theorem noise (b : Byte) : Statement (.noise b) := fun _ => rfl
theorem cmdBadsum (o k : Byte) : Statement (.cmdBadsum o k) := fun _ => rfl
theorem cmdUnsupported (o : Byte) : Statement (.cmdUnsupported o) := fun _ => rfl
theorem cmdSelect (o : Byte) : Statement (.cmdSelect o) := fun _ => rfl
theorem subframe (bs : List Byte) : Statement (.subframe bs) := fun _ => rfl
theorem txAck : Statement .txAck := fun _ => rfl
theorem txNack : Statement .txNack := fun _ => rfl
theorem txData (b : Byte) : Statement (.txData b) := fun _ => rfl
theorem push (b : Byte) : Statement (.push b) := fun _ => rfl
theorem drain (n : Nat) : Statement (.drain n) := fun _ => rfl
theorem rbReset : Statement .rbReset := fun _ => rfl
theorem validate (frame : List Byte) : Statement (.validate frame) := fun _ => rfl
theorem lookup (o : Byte) : Statement (.lookup o) := fun _ => rfl
theorem alarmArm (timeout : Nat) : Statement (.alarmArm timeout) := fun _ => rfl
theorem tick (d : Nat) : Statement (.tick d) := fun _ => rfl
theorem alarmExpire : Statement .alarmExpire := fun _ => rfl
theorem alarmDisarm : Statement .alarmDisarm := fun _ => rfl
theorem request (n : Nat) : Statement (.request n) := fun _ => rfl
theorem workStep (op : Byte) (es : List Effect) (r : WsResult) : Statement (.workStep op es r) := fun _ => rfl
theorem wsCall (op : Byte) : Statement (.wsCall op) := fun _ => rfl
theorem wsDone : Statement .wsDone := fun _ => rfl
theorem wsContinue : Statement .wsContinue := fun _ => rfl
theorem start (caps : Caps) (timeout chipId : Nat) : Statement (.start caps timeout chipId) := fun _ => rfl
theorem entry : Statement .entry := fun _ => rfl
theorem cfgCheck (caps : Caps) (timeout : Nat) : Statement (.cfgCheck caps timeout) := fun _ => rfl
theorem guard : Statement .guard := fun _ => rfl
theorem wdg : Statement .wdg := fun _ => rfl
theorem avail : Statement .avail := fun _ => rfl
theorem dispatch : Statement .dispatch := fun _ => rfl
theorem exit (c : Option EndCause) : Statement (.exit c) := fun _ => rfl

end Sys2Proof.Laws.EncodedLength
end

