-- ==== Sys2Proof/Laws/Session.lean ====
section
/-!
SUPPORT. Small facts about the invariants: they do not see the turns, and what they say of the memories an operation
reads.
-/

namespace Sys2Proof.Machine

/-- The phase as one chain of tests (R25). -/
theorem phase_eq (s : State) :
    phase s =
      if s.pc = .exit ∨ s.pc = .stopped then .sessionEnded
      else if s.pc = .idle ∨ s.pc = .entry then .notStarted
      else if s.hostInitDone = true then
        if s.selectedCommand.isSome = true then .executingCommand else .awaitingCommand
      else .awaitingInit := by
  cases h : s.pc <;> cases h2 : s.selectedCommand <;> simp [phase, h, h2]

theorem memOk_afterTurn (s : State) : MemOk (afterTurn s) ↔ MemOk s := by simp [MemOk]

theorem ringOk_afterTurn (s : State) : RingOk (afterTurn s) ↔ RingOk s := by simp [RingOk]

@[simp] theorem live_afterTurn (s : State) : live (afterTurn s) = live s := by simp [live]

@[simp] theorem expireEnabled_afterTurn (s : State) : expireEnabled (afterTurn s) = expireEnabled s := by
  simp [expireEnabled]

@[simp] theorem callbackInstalled_afterTurn (s : State) : callbackInstalled (afterTurn s) = callbackInstalled s := by
  simp [callbackInstalled]

/-- The session invariant sees these fields only, and of the ring only that no byte is lost from it. -/
theorem SessionOk.congr {s t : State} (h : SessionOk s) (h1 : t.cfg = s.cfg) (h2 : t.inputs = s.inputs)
    (h3 : s.rb.count ≤ t.rb.count) (h4 : t.hostInitDone = s.hostInitDone)
    (h5 : t.expectedByteCount = s.expectedByteCount) (h6 : t.staging = s.staging)
    (h7 : t.selectedCommand = s.selectedCommand) (h8 : t.stagedLen = s.stagedLen) (h9 : t.pc = s.pc)
    (h10 : t.endCause = s.endCause) (h11 : t.result = s.result) (h12 : t.armed = s.armed)
    (h13 : t.wsResult = s.wsResult) (h14 : t.timedOut = s.timedOut) : SessionOk t := by
  obtain ⟨i1, i2, i3, i4, i5, i6, i7, i8, i9, i10, i11, i12, i13, i14, i15⟩ := h
  constructor <;>
    simp only [live, stagedWritten, h1, h2, h4, h5, h6, h7, h8, h9, h10, h11, h12, h13, h14] <;> try assumption
  intro h
  exact Nat.le_trans (i6 h) h3

theorem sessionOk_afterTurn (s : State) : SessionOk (afterTurn s) ↔ SessionOk s := by
  constructor <;> intro h <;> exact h.congr (by simp) (by simp) (by simp) (by simp) (by simp) (by simp) (by simp)
    (by simp) (by simp) (by simp) (by simp) (by simp) (by simp) (by simp)

/-- A cell of the current frame can be read. -/
theorem stagingRead_of_frameWritten {s : State} {i : Nat} (hi : i < s.stagedLen)
    (hw : s.stagedLen ≤ s.cfg.fmax ∧ stagedWritten s.stagedLen s) : ∃ b, stagingRead s i = .ok b := by
  obtain ⟨b, hb⟩ := Option.isSome_iff_exists.1 (hw.2 i hi)
  have : s.cfg.fmax ≤ s.cfg.stagingSize := Nat.min_le_right _ _
  exact ⟨b, memRead_ok_iff.2 ⟨by omega, hb⟩⟩

/-- In a ring that meets its invariant DRAIN's loop runs through, and every cell it writes holds a byte. -/
theorem copyFrame_of_ringOk {s : State} {n : Nat} (hr : RingOk s) (hn : n ≤ s.rb.count) (hs : n ≤ s.cfg.stagingSize) :
    ∃ m, copyFrame n 0 (irqDisable s) = .ok ((irqDisable s).setStaging m) ∧
      ∀ k < n, (readCell m k).isSome = true := by
  rcases Nat.eq_zero_or_pos s.cfg.capacity with hz | hz
  · have : n = 0 := by have := hr.1; omega
    subst this
    exact ⟨s.staging, rfl, fun k hk => absurd hk (Nat.not_lt_zero k)⟩
  · obtain ⟨t, ht, hc⟩ := copyFrame_ok n 0 (irqDisable s) (by simpa [irqDisable] using hs) (fun j hj => by
      simp [irqDisable]
      exact ⟨Nat.mod_lt _ hz, hr.2.2.2 j (by omega)⟩)
    have he := copyFrame_ends_staging n 0 (irqDisable s)
    rw [ht] at he
    simp only [Ran.Ends] at he
    rw [he] at ht hc
    refine ⟨t.staging, ht, fun k hk => ?_⟩
    have := hc k hk
    simp [irqDisable] at this
    rw [this]
    exact hr.2.2.2 k (by omega)

end Sys2Proof.Machine
end

