-- ==== Sys2Proof/Tests/Slice0.lean ====
section
/-!
SUPPORT. The model's own tests. Expected values are the vectors of 95_test_vectors.md (their ids stand in the
docstrings), the encodings of 30_encoding.md, or worked by hand from the rule named. The `witness_` theorems show, for
each statement of Obligations.lean that has hypotheses, a state and operands that meet them, one per clause.
-/

namespace Sys2Proof.Tests

open Sys2Proof.Machine

/-! ## Helpers -/

/-- `p` holds of the next state an operation answers. -/
def onNext (o : Host.Outcome State Fault Refusal) (p : State → Bool) : Bool :=
  match o with
  | .next t => p t
  | .fault _ => false
  | .refused _ => false

/-- REF with `C = 4` (the ring vectors), and every capability present. -/
def ref4 : Params := { Params.ref with capacity := 4 }

def allCaps : Caps := ⟨true, true, true, true, true, true⟩

/-- A state inside a session, at `pc`, in AwaitingInit. -/
def inLoop (p : Params) (pc : ControlPoint) : State :=
  { State.resetWith p with pc := pc, inputs := ⟨allCaps, 0, 0⟩, expectedByteCount := 1 }

/-- The ring holds these cells. -/
def withRing (cells : Mem) (head tail count : Nat) (s : State) : State :=
  { s with rb := { buf := cells, head := head, tail := tail, count := count, ovf := 0 } }

/-- At DISPATCH in AwaitingInit with one byte staged. -/
def gotByte (b : Byte) : State := { inLoop Params.ref .dispatch with staging := [(0, b)], stagedLen := 1 }

/-- At DISPATCH in AwaitingCommand with a command frame staged. -/
def gotFrame (o k : Byte) : State :=
  { inLoop Params.ref .dispatch with
    hostInitDone := true, expectedByteCount := 2, staging := [(0, o), (1, k)], stagedLen := 2 }

/-- At DISPATCH in ExecutingCommand of READ-stub, its 4-byte sub-frame staged. -/
def gotSub : State :=
  { inLoop Params.ref .dispatch with
    hostInitDone := true, selectedCommand := some 0x11, expectedByteCount := 4
    staging := [(0, 0x08), (1, 0x00), (2, 0x00), (3, 0x00)], stagedLen := 4 }

/-- The same, waiting for the work step. -/
def waiting : State := { gotSub with pc := .cmdWait }

/-- The full ring of vector RB-3. -/
def fullRing (p : Params) : State := withRing [(0, 0x04), (1, 0x01), (2, 0x02), (3, 0x03)] 1 1 4 (inLoop p .guard)

def dropNewest4 : Params := { ref4 with overflowPolicy := .dropNewest }

/-- The next turn is `t`. -/
def turn (t : Turn) (s : State) : State := { s with turns := [t] }

/-! ## Well-formedness: an ill-formed term for each check -/

def clash : Params := { Params.ref with quitByte := 0x7F }

theorem test_wellFormed_refuses :
    WellFormed clash .quit = false ∧
    WellFormed Params.ref (.noise 0x7F) = false ∧
    WellFormed Params.ref (.noise 0xA5) = false ∧
    WellFormed Params.ref (.cmdBadsum 0x11 0xEE) = false ∧
    WellFormed Params.ref (.cmdUnsupported 0x11) = false ∧
    WellFormed Params.ref (.cmdSelect 0x22) = false ∧
    WellFormed Params.ref (.subframe [0, 0, 0, 0, 0, 0, 0, 0, 0]) = false ∧
    WellFormed Params.ref (.drain 9) = false ∧
    WellFormed Params.ref (.tick 0) = false ∧
    WellFormed Params.ref (.request 9) = false ∧
    WellFormed Params.ref (.workStep 0x22 [] .done) = false ∧
    WellFormed Params.ref (.workStep 0x11 [.breach .touchRing] .done) = false ∧
    WellFormed Params.ref (.workStep 0x11 [.request 9] .done) = false ∧
    WellFormed Params.ref (.wsCall 0x22) = false ∧
    WellFormed clash (.start allCaps 0 0) = false ∧
    WellFormed Params.ref (.exit none) = false := by decide

theorem test_wellFormed_accepts :
    WellFormed Params.ref .quit = true ∧
    WellFormed Params.ref (.noise 0x79) = true ∧
    WellFormed Params.ref (.cmdBadsum 0x11 0x11) = true ∧
    WellFormed Params.ref (.cmdUnsupported 0x22) = true ∧
    WellFormed Params.ref (.cmdSelect 0x43) = true ∧
    WellFormed Params.ref (.subframe []) = true ∧
    WellFormed Params.ref (.drain 8) = true ∧
    WellFormed Params.ref (.tick 1) = true ∧
    WellFormed Params.ref (.request 0) = true ∧
    WellFormed Params.ref (.workStep 0x11 [.sendByte 0x79, .request 1] .cont) = true ∧
    WellFormed Params.ref (.start allCaps 0 0) = true ∧
    WellFormed Params.ref (.exit (some .quit)) = true := by decide

/-! ## Decoding: the words of 30_encoding.md written out bit by bit, at REF's values -/

theorem test_decode_init : decode Params.ref .w1 [0b01111111] = .ok (.init, []) := rfl
theorem test_decode_quit : decode Params.ref .w1 [0b10100101] = .ok (.quit, []) := rfl
/-- The ACK value is noise when received (E-4). -/
theorem test_decode_noise : decode Params.ref .w1 [0b01111001] = .ok (.noise 0x79, []) := rfl
theorem test_decode_badsum : decode Params.ref .w2 [0b00010001, 0b00010001] = .ok (.cmdBadsum 0x11 0x11, []) := rfl
/-- An unregistered opcode with a bad checksum is CMD_BADSUM (E-9). -/
theorem test_decode_badsum_first : decode Params.ref .w2 [0b00100010, 0b00100010] = .ok (.cmdBadsum 0x22 0x22, []) :=
  rfl
theorem test_decode_unsupported : decode Params.ref .w2 [0b00100010, 0b11011101] = .ok (.cmdUnsupported 0x22, []) :=
  rfl
/-- `7F 80` after the handshake is an opcode, not INIT (E-12). -/
theorem test_decode_init_opcode : decode Params.ref .w2 [0b01111111, 0b10000000] = .ok (.cmdUnsupported 0x7F, []) :=
  rfl
theorem test_decode_select : decode Params.ref .w2 [0b01000011, 0b10111100] = .ok (.cmdSelect 0x43, []) := rfl
theorem test_decode_subframe :
    decode Params.ref (.w3 4) [0b00001000, 0, 0, 0, 0b00000011] = .ok (.subframe [0x08, 0, 0, 0], [0x03]) := rfl
theorem test_decode_empty_subframe : decode Params.ref (.w3 0) [0xFF] = .ok (.subframe [], [0xFF]) := rfl
theorem test_decode_ack : decode Params.ref (.t1 .onInit) [0b01111001] = .ok (.txAck, []) := rfl
theorem test_decode_nack : decode Params.ref (.t1 .onUnsupported) [0b00011111] = .ok (.txNack, []) := rfl
theorem test_decode_data : decode Params.ref (.t1 .workStep) [0b01111001] = .ok (.txData 0x79, []) := rfl
theorem test_decode_rejects :
    decode Params.ref .w2 [0x11] = .error (.tooFewBytes 2 1) ∧
    decode Params.ref (.t1 .onInit) [0x1F] = .error (.notAck 0x1F) ∧
    decode Params.ref (.t1 .onUnsupported) [0x79] = .error (.notNack 0x79) := ⟨rfl, rfl, rfl⟩

/-- The table's numbering: a W2 frame's opcode is bits 15:8, its checksum 7:0. -/
theorem test_tableWord :
    decodeTableWord 8 0x7F = some .init ∧ decodeTableWord 8 0xA5 = some .quit ∧
    decodeTableWord 8 0x00 = some (.noise 0x00) ∧ decodeTableWord 16 0x1111 = some (.cmdBadsum 0x11 0x11) ∧
    decodeTableWord 16 0x22DD = some (.cmdUnsupported 0x22) ∧ decodeTableWord 16 0x11EE = some (.cmdSelect 0x11) ∧
    decodeTableWord 0 0 = some (.subframe []) := by decide

/-- The first step after placing a frame runs its token. -/
theorem test_fetchWord_init :
    onNext (step (State.reset.withFetchWord 8 0x7F)) (fun t =>
      t.hostInitDone && t.hist == [.tx 0x79] && t.pc == .guard && t.expectedByteCount == 2) = true := by decide
theorem test_fetchWord_select :
    onNext (step (State.reset.withFetchWord 16 0x43BC)) (fun t =>
      t.selectedCommand == some 0x43 && t.expectedByteCount == 1 && t.hist == []) = true := by decide
theorem test_fetchWord_subframe :
    onNext (step (State.reset.withFetchWord 24 0x030201)) (fun t =>
      t.pc == .cmdWait && t.hist == [.workStep 0x00] && readCell t.staging 0 == some 0x01) = true := by decide

/-! ## Tokens -/

/-- E-1. -/
theorem test_init : onNext (exec .init (gotByte 0x7F)) (fun t =>
    t.hostInitDone && t.expectedByteCount == 2 && t.hist == [.tx 0x79] && phase t == .awaitingCommand) = true := by
  decide
/-- E-2. -/
theorem test_quit : onNext (exec .quit (gotByte 0xA5)) (fun t =>
    t.endCause == some .quit && t.pc == .exit && t.hist == [] && !t.hostInitDone) = true := by decide
/-- E-4: the ACK value as noise. -/
theorem test_noise : onNext (exec (.noise 0x79) (gotByte 0x79)) (fun t =>
    t.expectedByteCount == 1 && phase t == .awaitingInit && t.hist == []) = true := by decide
/-- E-8: no `tx`. -/
theorem test_badsum : onNext (exec (.cmdBadsum 0x11 0x11) (gotFrame 0x11 0x11)) (fun t =>
    t.endCause == some .checksumFail && t.pc == .exit && t.hist == []) = true := by decide
/-- E-10: with logging enabled one log record. -/
theorem test_badsum_logs :
    onNext (exec (.cmdBadsum 0x11 0x11)
      { gotFrame 0x11 0x11 with cfg := { Params.ref with logEnabled := true } }) (fun t =>
      t.hist == [.log .checksumFail]) = true := by decide
/-- E-7. -/
theorem test_unsupported : onNext (exec (.cmdUnsupported 0x22) (gotFrame 0x22 0xDD)) (fun t =>
    t.endCause == some .unsupported && t.pc == .exit && t.hist == [.tx 0x1F]) = true := by decide
/-- E-5. -/
theorem test_select : onNext (exec (.cmdSelect 0x11) (gotFrame 0x11 0xEE)) (fun t =>
    t.selectedCommand == some 0x11 && t.expectedByteCount == 4 && t.hist == []) = true := by decide
/-- E-6: a descriptor with no first sub-frame. -/
theorem test_select_empty : onNext (exec (.cmdSelect 0x00) (gotFrame 0x00 0xFF)) (fun t =>
    t.selectedCommand == some 0x00 && t.expectedByteCount == 0) = true := by decide
/-- P2 step 4. -/
theorem test_subframe : onNext (exec (.subframe [0x08, 0, 0, 0]) gotSub) (fun t =>
    t.pc == .cmdWait && t.hist == [.workStep 0x11] && t.expectedByteCount == 4) = true := by decide
theorem test_wsCall : onNext (exec (.wsCall 0x11) gotSub) (fun t =>
    t.pc == .cmdWait && t.hist == [.workStep 0x11]) = true := by decide
/-- Q-8: `Done` overrides the step's request. -/
theorem test_wsDone :
    onNext (exec .wsDone { waiting with wsResult := some .done, expectedByteCount := 5 }) (fun t =>
      t.expectedByteCount == 2 && t.selectedCommand == none && t.hist == [.wsRet .done] && t.pc == .guard) = true := by
  decide
/-- Q-9: without a request the size stays. -/
theorem test_wsContinue : onNext (exec .wsContinue { waiting with wsResult := some .cont }) (fun t =>
    t.expectedByteCount == 4 && t.selectedCommand == some 0x11 && t.hist == [.wsRet .cont] && t.pc == .guard) = true := by
  decide

/-! ## Sent bytes -/

theorem test_txAck : onNext (exec .txAck waiting) (fun t => t.hist == [.tx 0x79]) = true := by decide
theorem test_txNack : onNext (exec .txNack waiting) (fun t => t.hist == [.tx 0x1F]) = true := by decide
theorem test_txData : onNext (exec (.txData 0xC3) waiting) (fun t => t.hist == [.tx 0xC3]) = true := by decide

/-! ## Ring buffer -/

/-- RB-3: the oldest byte is overwritten. -/
theorem test_push_overwrites :
    onNext (exec (.push 0x05) { fullRing ref4 with uartPending := [0x05] }) (fun t =>
      t.rb == ⟨[(0, 0x04), (1, 0x05), (2, 0x02), (3, 0x03)], 2, 2, 4, 1⟩ && t.uartPending == []) = true := by decide
/-- RB-2: the tail wraps. -/
theorem test_push_wraps :
    onNext (exec (.push 0x04)
      { withRing [(0, 1), (1, 2), (2, 3)] 0 3 3 (inLoop ref4 .guard) with uartPending := [0x04] }) (fun t =>
      t.rb == ⟨[(0, 1), (1, 2), (2, 3), (3, 4)], 0, 0, 4, 0⟩) = true := by decide
/-- RB-9. -/
theorem test_drain_wraps :
    onNext (exec (.drain 2) (withRing [(0, 0xEE), (3, 0x11)] 3 1 2 (inLoop ref4 .drain))) (fun t =>
      t.staging == [(0, 0x11), (1, 0xEE)] && t.rb.head == 1 && t.rb.tail == 1 && t.rb.count == 0 &&
      t.stagedLen == 2 && t.ie && t.hist == [.irqDisable, .irqEnable]) = true := by decide
/-- RB-12. -/
theorem test_drain_underflow :
    onNext (exec (.drain 2) (withRing [(0, 0x11)] 0 1 1 (inLoop ref4 .drain))) (fun t =>
      t.fault == some .drainUnderflow) = true := by decide
/-- RB-14. -/
theorem test_rbReset :
    onNext (exec .rbReset { inLoop ref4 .guard with rb := ⟨[(2, 1), (3, 2), (0, 3)], 2, 1, 3, 5⟩ }) (fun t =>
      t.rb == ⟨[], 0, 0, 0, 0⟩) = true := by decide

/-! ## Checksum -/

/-- V-12. -/
theorem test_validate : onNext (exec (.validate [0x01, 0x02, 0xFC]) State.reset) (fun t =>
    t.output == some (.valid true)) = true := by decide
/-- V-1, V-2, V-3, V-6, V-8, V-10, V-13, V-14. -/
theorem test_validate_vectors :
    validate [] = false ∧ validate [0xFF] = true ∧ validate [0x00] = false ∧ validate [0x11, 0x11] = false ∧
    validate [0xFF, 0x00] = true ∧ validate [0x00, 0x00] = false ∧ validate [0x02, 0x01, 0xFC] = true ∧
    validate [0x01, 0x02, 0x03] = false := by decide

/-! ## Timer -/

/-- T-2. -/
theorem test_alarmArm : onNext (exec (.alarmArm 5) { State.reset with now := 3 }) (fun t =>
    t.hist == [.getTime 3, .setAlarm 8, .alarmEnable] && t.alarm == ⟨some 8, true⟩ && t.armed) = true := by decide
/-- T-1. -/
theorem test_alarmArm_zero : onNext (exec (.alarmArm 0) { State.reset with armed := true }) (fun t =>
    t.hist == [] && !t.armed) = true := by decide
/-- T-4. -/
theorem test_tick : onNext (exec (.tick 1) { State.reset with now := 7 }) (fun t => t.now == 8) = true := by decide
/-- T-5 after `IE = true`. -/
theorem test_expire : onNext (exec .alarmExpire { inLoop Params.ref .guard with now := 8, alarm := ⟨some 8, true⟩ })
    (fun t => t.timedOut && t.alarm == ⟨some 8, false⟩) = true := by decide
/-- T-3. -/
theorem test_expire_early :
    onNext (exec .alarmExpire { inLoop Params.ref .guard with now := 7, alarm := ⟨some 8, true⟩ }) (fun t =>
      !t.timedOut && t.alarm.enabled) = true := by decide
/-- R78: with `TIMEOUT = 0` no expiry occurs, even of an alarm that was enabled at launch. -/
theorem test_no_expiry_without_timeout :
    onNext (step { inLoop Params.ref .guard with
      now := 8, alarm := ⟨some 8, true⟩, turns := [.expire] }) (fun t => !t.timedOut && t.alarm.enabled) = true := by
  decide
/-- T-12, the disarming of an alarm that has expired. -/
theorem test_disarm : onNext (exec .alarmDisarm { inLoop Params.ref .exit with alarm := ⟨some 8, false⟩ }) (fun t =>
    t.hist == [.alarmDisable] && !t.alarm.enabled) = true := by decide

/-! ## Registry and work steps -/

/-- Q-1, Q-2. -/
theorem test_lookup :
    onNext (exec (.lookup 0x11) State.reset) (fun t => t.output == some (.descriptor (some ⟨0x11, 4⟩))) = true ∧
    onNext (exec (.lookup 0x7F) State.reset) (fun t => t.output == some (.descriptor none)) = true := by decide
/-- Q-4, Q-5. -/
theorem test_request :
    onNext (exec (.request 8) waiting) (fun t => t.expectedByteCount == 8 && t.fault == none) = true ∧
    onNext (exec (.request 9) waiting) (fun t => t.fault == some .requestRange) = true := by decide
/-- Q-6: the staging area bounds a frame, too. -/
theorem test_request_staging :
    onNext (exec (.request 5) { waiting with cfg := { Params.ref with stagingSize := 4 } }) (fun t =>
      t.fault == some .requestRange) = true := by decide
/-- Q-7: the last request wins. -/
theorem test_workStep :
    onNext (exec (.workStep 0x11 [.request 3, .sendByte 0x79, .request 5] .cont) waiting) (fun t =>
      t.expectedByteCount == 5 && t.hist == [.tx 0x79] && t.wsResult == some .cont) = true := by decide
/-- R86: a breach is CONTRACT; what came before it stands. -/
theorem test_workStep_breach :
    onNext (exec (.workStep 0x11 [.sendByte 0x79, .breach .touchRing, .sendByte 0x00] .done) waiting) (fun t =>
      t.fault == some .contract && t.hist == [.tx 0x79] && t.wsResult == none) = true := by decide

/-! ## Engine -/

/-- T-10, T-11. -/
theorem test_guard :
    onNext (exec .guard { inLoop Params.ref .guard with timedOut := true }) (fun t =>
      t.endCause == some .timeout && t.pc == .exit) = true ∧
    onNext (exec .guard { inLoop Params.ref .guard with timedOut := true, hostInitDone := true }) (fun t =>
      t.pc == .wdg) = true := by decide
/-- E-17. -/
theorem test_wdg : onNext (exec .wdg (inLoop Params.ref .wdg)) (fun t => t.hist == [.wdgFeed] && t.pc == .avail) =
    true := by decide
/-- RB-15, and `0 >= 0` (P4 step 9). -/
theorem test_avail :
    onNext (exec .avail { withRing [(0, 0x11)] 0 1 1 (inLoop ref4 .avail) with expectedByteCount := 2 }) (fun t =>
      t.pc == .guard) = true ∧
    onNext (exec .avail { inLoop ref4 .avail with expectedByteCount := 0 }) (fun t => t.pc == .drain) = true := by
  decide
/-- E-9: the checksum is tested before the registry. -/
theorem test_dispatch_checksum_first : onNext (exec .dispatch (gotFrame 0x22 0x22)) (fun t =>
    t.endCause == some .checksumFail && t.hist == []) = true := by decide
/-- E-13: the QUIT value after the handshake. -/
theorem test_dispatch_late_quit : onNext (exec .dispatch (gotFrame 0xA5 0x5A)) (fun t =>
    t.endCause == some .unsupported && t.hist == [.tx 0x1F]) = true := by decide

/-! ## Session start and end -/

/-- X-9. -/
theorem test_start_clash : exec (.start allCaps 0 0) (State.resetWith clash) = .refused .sentinelClash := rfl
theorem test_start : onNext (exec (.start allCaps 5 7) State.reset) (fun t =>
    t.inputs == ⟨allCaps, 5, 7⟩ && t.pc == .entry) = true := by decide
/-- X-2. -/
theorem test_entry :
    onNext (exec .entry { State.reset with pc := .entry, inputs := ⟨allCaps, 5, 0⟩, rb := ⟨[(0, 1)], 0, 1, 1, 9⟩ })
      (fun t => t.pc == .guard && t.expectedByteCount == 1 && t.rb == ⟨[], 0, 0, 0, 0⟩ && t.armed &&
        t.hist == [.getTime 0, .setAlarm 5, .alarmEnable] && phase t == .awaitingInit) = true := by decide
/-- X-3: the ring is not reset. -/
theorem test_entry_config :
    onNext (exec .entry
      { State.reset with
        pc := .entry, inputs := ⟨{ allCaps with tx := false }, 0, 0⟩, rb := ⟨[(0, 1)], 0, 1, 1, 9⟩ }) (fun t =>
      t.endCause == some .configCaps && t.pc == .exit && t.rb == ⟨[(0, 1)], 0, 1, 1, 9⟩ && t.hist == []) = true := by
  decide
/-- X-4, X-5, X-6, X-7, X-8, Q-10. -/
theorem test_cfgCheck :
    Params.ref.cfgCheck { allCaps with timer := false } 5 = some .configCaps ∧
    Params.ref.cfgCheck { allCaps with timer := false } 0 = none ∧
    { Params.ref with logEnabled := true }.cfgCheck { allCaps with log := false } 0 = some .configCaps ∧
    { Params.ref with capacity := 1 }.cfgCheck allCaps 0 = some .configBound ∧
    { Params.ref with capacity := 1 }.cfgCheck { allCaps with wdg := false } 0 = some .configCaps ∧
    { Params.ref with registry := [⟨0x33, 9⟩] }.cfgCheck allCaps 0 = some .configBound := by decide
theorem test_cfgCheck_answer : onNext (exec (.cfgCheck { allCaps with log := false } 0) State.reset) (fun t =>
    t.output == some (.config none)) = true := by decide
/-- Z-4. -/
theorem test_exit_armed :
    onNext (exec (.exit (some .timeout)) { inLoop Params.ref .exit with armed := true, alarm := ⟨some 5, false⟩ })
      (fun t => t.hist == [.alarmDisable, .irqDisable, .sessionRet true] && t.result == some true && !t.ie &&
        t.pc == .stopped) = true := by decide
/-- E-18: no gate, no `irq_disable`. -/
theorem test_exit_no_gate :
    onNext (exec (.exit (some .configCaps))
      { inLoop Params.ref .exit with inputs := ⟨{ allCaps with irqGate := false }, 0, 0⟩ }) (fun t =>
      t.hist == [.sessionRet false] && t.result == some false && t.ie) = true := by decide

/-- R106, R55: the codes and the results of the end causes, and the work step's result bit. -/
theorem test_codes :
    EndCause.configCaps.code = 1 ∧ EndCause.configBound.code = 2 ∧ EndCause.quit.code = 3 ∧
    EndCause.timeout.code = 4 ∧ EndCause.checksumFail.code = 5 ∧ EndCause.unsupported.code = 6 ∧
    endResult (some .quit) = true ∧ endResult (some .timeout) = true ∧ endResult (some .unsupported) = false ∧
    WsResult.done.bit = 1 ∧ WsResult.cont.bit = 0 := by decide
/-- R124: STOPPED without a fault is final, and the transmitted bytes are the `tx` events in order. -/
theorem test_observation :
    isFinal (inLoop ref4 .stopped) = true ∧ isFinal (inLoop ref4 .guard) = false ∧
    isFinal { inLoop ref4 .stopped with fault := some .index } = false ∧
    sentBytes [.wdgFeed, .tx 0x79, .irqDisable, .tx 0x1F, .sessionRet false] = [0x79, 0x1F] := by decide
/-- R124, R19, R65: the observed ring is its buffered bytes, oldest first (RB-3); stale cells do not show (RB-11). -/
theorem test_observed_ring :
    (observe (fullRing ref4)).ring = [some 0x01, some 0x02, some 0x03, some 0x04] ∧
    (observe (withRing [(0, 0x04), (1, 0x01), (2, 0x02), (3, 0x03)] 2 2 0 (inLoop ref4 .stopped))).ring = [] := by
  decide

/-! ## Witnesses: the hypotheses of each statement can be met -/

/-- One byte pending. -/
def pending5 (s : State) : State := { s with uartPending := [5] }

/-- At DRAIN with a full ring and the whole of it expected (RB-11). -/
def fullDrain : State := { fullRing ref4 with pc := .drain, expectedByteCount := 4 }

theorem gotInit_sessionOk : SessionOk (gotByte 0x7F) := by
  constructor
  case selected => intro op h; cases h
  all_goals decide

theorem gotQuit_sessionOk : SessionOk (gotByte 0xA5) := by
  constructor
  case selected => intro op h; cases h
  all_goals decide

theorem gotSub_sessionOk : SessionOk gotSub := by
  constructor
  case selected => intro op h; cases h; decide
  all_goals decide

theorem waiting_sessionOk : SessionOk waiting := by
  constructor
  case selected => intro op h; cases h; decide
  all_goals decide

theorem witness_StepRunsTheFetchedOperation :
    (turn (.tick 1) State.reset).fault = none ∧
    fetch (nextTurn (turn (.tick 1) State.reset)) (afterTurn (turn (.tick 1) State.reset)) = some (.tick 1) ∧
    fetch (nextTurn (turn .engine State.reset)) (afterTurn (turn .engine State.reset)) = none ∧
    (turn .engine State.reset).turns = .engine :: [] ∧ State.reset.turns = [] := by decide

theorem witness_StepRunsTheStagedToken :
    (nextTurn (turn .engine (gotByte 0x7F)) = .engine ∧ (turn .engine (gotByte 0x7F)).pc = .dispatch ∧
      phase (turn .engine (gotByte 0x7F)) = .awaitingInit ∧ (turn .engine (gotByte 0x7F)).fault = none ∧
      stagingBytes (turn .engine (gotByte 0x7F)) 1 0 = .ok [0x7F] ∧
      decode Params.ref .w1 [0x7F] = .ok (.init, [])) ∧
    (phase (turn .engine (gotFrame 0x11 0xEE)) = .awaitingCommand ∧
      stagingBytes (turn .engine (gotFrame 0x11 0xEE)) 2 0 = .ok [0x11, 0xEE] ∧
      decode Params.ref .w2 [0x11, 0xEE] = .ok (.cmdSelect 0x11, [])) ∧
    (phase (turn .engine gotSub) = .executingCommand ∧ (turn .engine gotSub).stagedLen = 4 ∧
      stagingBytes (turn .engine gotSub) 4 0 = .ok [0x08, 0, 0, 0] ∧
      decode Params.ref (.w3 4) [0x08, 0, 0, 0] = .ok (.subframe [0x08, 0, 0, 0], [])) :=
  ⟨⟨rfl, rfl, rfl, rfl, rfl, rfl⟩, ⟨rfl, rfl, rfl⟩, rfl, rfl, rfl, rfl⟩

theorem witness_EngineFollowsItsControlPoint :
    ∀ p ∈ [ControlPoint.idle, .entry, .guard, .wdg, .avail, .drain, .dispatch, .cmdWait, .exit, .stopped],
      (turn .engine (inLoop Params.ref p)).fault = none ∧ nextTurn (turn .engine (inLoop Params.ref p)) = .engine ∧
        (turn .engine (inLoop Params.ref p)).pc = p := by decide

/-- In a session with `TIMEOUT = 8`, the deadline just reached. -/
def expiring : State :=
  { inLoop ref4 .guard with inputs := ⟨allCaps, 8, 0⟩, armed := true, now := 8, alarm := ⟨some 8, true⟩ }

theorem witness_OtherAgentsTakeTheirTurns :
    (nextTurn (turn .rx { State.reset with uartPending := [0x7F] }) = .rx ∧ State.reset.uartPending = []) ∧
    (waiting.selectedCommand = some 0x11 ∧ State.reset.selectedCommand = none) ∧
    (waiting.pc = .cmdWait ∧ waiting.wsResult = none) ∧
    ∀ t ∈ [Turn.rx, .tick 1, .expire, .work [] .done, .workSends 0x79, .workRequests 1, .start allCaps 0 0,
        .hostSends [0x7F], .platformEnables, .platformSetsGate false, .platformSetsAlarm none false],
      (turn t waiting).fault = none ∧ nextTurn (turn t waiting) = t ∧ nextTurn (turn t expiring) = t ∧
        nextTurn (turn t State.reset) = t ∧ waiting.pc ≠ .idle ∧ waiting.inputs.timeout = 0 ∧
        expiring.inputs.timeout ≠ 0 ∧ expiring.pc ≠ .cmdWait ∧ State.reset.pc = .idle := by decide

theorem witness_FaultedStateTakesNoStep : { State.reset with fault := some .contract }.fault = some .contract := rfl

theorem witness_DecodeOfEncodeIsTheOperation :
    (WellFormed Params.ref (.noise 0x00) = true ∧ formatOf (.noise 0x00) = some .w1 ∧
      encode Params.ref (.noise 0x00) = some [0x00]) ∧
    (WellFormed Params.ref (.cmdBadsum 0xFF 0xFF) = true ∧ formatOf (.cmdBadsum 0xFF 0xFF) = some .w2 ∧
      encode Params.ref (.cmdBadsum 0xFF 0xFF) = some [0xFF, 0xFF]) ∧
    (WellFormed Params.ref (.subframe [0, 1, 2, 3, 4, 5, 6, 7]) = true ∧
      formatOf (.subframe [0, 1, 2, 3, 4, 5, 6, 7]) = some (.w3 8) ∧
      encode Params.ref (.subframe [0, 1, 2, 3, 4, 5, 6, 7]) = some [0, 1, 2, 3, 4, 5, 6, 7]) ∧
    (WellFormed Params.ref .txAck = true ∧ formatOf .txAck = some (.t1 .onInit) ∧
      encode Params.ref .txAck = some [0x79]) := by decide

theorem witness_EncodeOfDecodeIsTheFrame :
    Params.ref.fmax = 8 ∧
    decode Params.ref (.w3 8) [0, 1, 2, 3, 4, 5, 6, 7, 8] = .ok (.subframe [0, 1, 2, 3, 4, 5, 6, 7], [8]) ∧
    decode Params.ref .w2 [0x22, 0xDD] = .ok (.cmdUnsupported 0x22, []) := ⟨rfl, rfl, rfl⟩

theorem witness_EveryCommandFrameIsOneToken :
    (0x11 : Byte) ≠ ~~~0x11 ∧ ((0xDD : Byte) = ~~~0x22 ∧ Params.ref.lookup 0x22 = none) ∧
    ((0xEE : Byte) = ~~~0x11 ∧ Params.ref.lookup 0x11 = some ⟨0x11, 4⟩) := by decide

theorem witness_ValidateLaws :
    List.Perm ([0x01, 0x02] : List Byte) [0x02, 0x01] ∧ validate ([0x11] ++ [0xEE]) = true := by decide

/-- Discarded before the session, room for one, full with each policy. -/
theorem witness_PushAppendsTheFirstPendingByte :
    ({ State.reset with uartPending := [0x7F] }.ie = true ∧ State.reset.pc = .idle) ∧
    ∀ s ∈ [withRing [(0, 1), (1, 2), (2, 3)] 0 3 3 (inLoop ref4 .guard), fullRing ref4, fullRing dropNewest4].map
        pending5,
      s.uartPending = [5] ∧ s.ie = true ∧ s.pc ≠ .stopped ∧ s.rb.tail < s.cfg.capacity := by
  decide

theorem witness_MaskedInterruptsStayPending :
    { inLoop ref4 .guard with ie := false }.ie = false ∧ (inLoop ref4 .stopped).pc = .stopped := by decide

theorem witness_PushWritesAtMostTheTailCell :
    ∃ t, exec (.push 5) { fullRing ref4 with uartPending := [5] } = .next t := ⟨_, rfl⟩

/-- The whole ring, the empty frame, one byte too few, and another control point. -/
theorem witness_DrainDeliversTheOldestBytes :
    (fullDrain.pc = .drain ∧ 4 ≤ fullDrain.rb.count ∧ 4 ≤ fullDrain.cfg.stagingSize ∧ 0 < fullDrain.cfg.capacity ∧
      RingOk fullDrain) ∧
    ((inLoop ref4 .drain).pc = .drain ∧ 0 ≤ (inLoop ref4 .drain).rb.count ∧ RingOk (inLoop ref4 .drain)) ∧
    (fullDrain.rb.count < 5 ∧ (inLoop ref4 .guard).pc ≠ .drain) := by decide

theorem witness_RbResetEmptiesTheRing : ∃ t, exec .rbReset fullDrain = .next t := ⟨_, rfl⟩

theorem witness_RingIsAQueue :
    (∀ s ∈ [withRing [(0, 1), (1, 2), (2, 3)] 0 3 3 (inLoop ref4 .guard), fullRing ref4, fullRing dropNewest4].map
        pending5,
      RingOk s ∧ 0 < s.cfg.capacity ∧ s.pc ≠ .idle ∧ s.pc ≠ .entry ∧ pushEnabled 5 s = true ∧
        onNext (exec (.push 5) s) (fun _ => true) = true) ∧
    (RingOk fullDrain ∧ 0 < fullDrain.cfg.capacity) ∧
    (fullDrain.pc = .drain ∧ 4 ≤ fullDrain.rb.count ∧ 4 ≤ fullDrain.cfg.stagingSize) ∧
    ((fullRing ref4).cfg.overflowPolicy = .overwriteOldest ∧ (fullRing dropNewest4).cfg.overflowPolicy = .dropNewest) ∧
    onNext (exec (.drain 4) fullDrain) (fun _ => true) = true := by decide

/-- The deadline just reached; and each way of not expiring. -/
theorem witness_AlarmExpiresOnceTheDeadlineIsReached :
    ({ inLoop ref4 .guard with now := 8, alarm := ⟨some 8, true⟩ }.alarm = ⟨some 8, true⟩ ∧
      (inLoop ref4 .guard).ie = true ∧ (inLoop ref4 .guard).pc ≠ .stopped) ∧
    ((7 : Nat) < 8 ∧ (inLoop ref4 .guard).alarm.enabled = false ∧ (inLoop ref4 .guard).alarm.deadline = none ∧
      { inLoop ref4 .guard with ie := false }.ie = false ∧ (inLoop ref4 .stopped).pc = .stopped) := by decide

theorem witness_LookupAnswersTheDescriptor :
    State.reset.cfg.lookup 0x43 = some ⟨0x43, 1⟩ ∧ State.reset.cfg.lookup 0x22 = none := by decide

theorem witness_RequestSetsTheFrameSize :
    8 ≤ min waiting.cfg.capacity waiting.cfg.stagingSize ∧ min waiting.cfg.capacity waiting.cfg.stagingSize < 9 := by
  decide

theorem witness_WorkStepMakesItsEffects :
    waiting.pc = .cmdWait ∧ waiting.selectedCommand = some 0x11 ∧ waiting.wsResult = none ∧
    (waiting.cfg.lookup 0x11).isSome = true ∧ waiting.stagedLen ≤ waiting.cfg.stagingSize ∧
    stagedWritten waiting.stagedLen waiting ∧
    keepsContract waiting [.sendByte 0x79, .feedWatchdog, .flash .write, .log (.ofCommand [1]), .request 8, .setPriv [2]] =
      true := by decide

theorem witness_WorkStepBreachIsAFault :
    (waiting.pc = .cmdWait ∧ waiting.selectedCommand = some 0x11 ∧ waiting.wsResult = none ∧
      (waiting.cfg.lookup 0x11).isSome = true ∧ waiting.stagedLen ≤ waiting.cfg.stagingSize ∧
      stagedWritten waiting.stagedLen waiting ∧ keepsContract waiting [.request 8] = true) ∧
    (∃ f, Effect.breach .endSession = .breach f) ∧
    (∃ n, Effect.request 9 = .request n ∧ waiting.cfg.fmax < n) :=
  ⟨by decide, ⟨_, rfl⟩, 9, rfl, by decide⟩

theorem witness_WorkStepTouchesNothingElse :
    ∃ t, exec (.workStep 0x11 [.sendByte 0x79, .request 9] .done) waiting = .next t := ⟨_, rfl⟩

theorem witness_WorkStepRunsOnlyWhenCalled :
    gotSub.pc ≠ .cmdWait ∧ waiting.selectedCommand ≠ some 0x00 ∧
    { waiting with wsResult := some WsResult.done }.wsResult ≠ none := by decide

theorem witness_GuardTestsTheTimeout : (inLoop ref4 .guard).pc = .guard := rfl

theorem witness_WdgFeedsOnce : (inLoop ref4 .wdg).pc = .wdg := rfl

theorem witness_AvailComparesTheByteCount : (inLoop ref4 .avail).pc = .avail := rfl

theorem witness_DispatchRunsOneHandler :
    ((gotByte 0xA5).pc = .dispatch ∧ (gotByte 0xA5).hostInitDone = false ∧ stagingRead (gotByte 0xA5) 0 = .ok 0xA5) ∧
    ((gotFrame 0x22 0x22).pc = .dispatch ∧ (gotFrame 0x22 0x22).hostInitDone = true ∧
      (gotFrame 0x22 0x22).selectedCommand = none ∧ stagingRead (gotFrame 0x22 0x22) 0 = .ok 0x22 ∧
      stagingRead (gotFrame 0x22 0x22) 1 = .ok 0x22) ∧
    (gotSub.pc = .dispatch ∧ gotSub.hostInitDone = true ∧ gotSub.selectedCommand = some 0x11) :=
  ⟨⟨rfl, rfl, rfl⟩, ⟨rfl, rfl, rfl, rfl, rfl⟩, rfl, rfl, rfl⟩

theorem witness_DispatchCompletes :
    (SessionOk (gotByte 0x7F) ∧ (gotByte 0x7F).pc = .dispatch) ∧ (SessionOk gotSub ∧ gotSub.pc = .dispatch) :=
  ⟨⟨gotInit_sessionOk, rfl⟩, gotSub_sessionOk, rfl⟩

theorem witness_InitCompletesTheHandshake :
    (gotByte 0x7F).pc = .dispatch ∧ (gotByte 0x7F).hostInitDone = false ∧ genericFrame ≤ (gotByte 0x7F).cfg.fmax := by
  decide

theorem witness_QuitEndsTheSession :
    (gotByte 0xA5).pc = .dispatch ∧ (gotByte 0xA5).hostInitDone = false ∧
    (gotByte 0xA5).cfg.quitByte ≠ (gotByte 0xA5).cfg.initByte := by decide

theorem witness_NoiseIsDiscarded :
    (gotByte 0x00).pc = .dispatch ∧ (gotByte 0x00).hostInitDone = false ∧ (0x00 : Byte) ≠ (gotByte 0x00).cfg.initByte ∧
    (0x00 : Byte) ≠ (gotByte 0x00).cfg.quitByte ∧ 1 ≤ (gotByte 0x00).cfg.fmax := by decide

theorem witness_BadChecksumEndsTheSession :
    (gotFrame 0 0).pc = .dispatch ∧ (gotFrame 0 0).hostInitDone = true ∧ (gotFrame 0 0).selectedCommand = none ∧
    (0x00 : Byte) ≠ ~~~0x00 := by decide

theorem witness_UnsupportedOpcodeIsNacked :
    (gotFrame 0x7F 0x80).pc = .dispatch ∧ (gotFrame 0x7F 0x80).hostInitDone = true ∧
    (gotFrame 0x7F 0x80).selectedCommand = none ∧ (gotFrame 0x7F 0x80).cfg.lookup 0x7F = none := by decide

theorem witness_SelectionRequestsTheSubframe :
    (gotFrame 0x11 0xEE).pc = .dispatch ∧ (gotFrame 0x11 0xEE).hostInitDone = true ∧
    (gotFrame 0x11 0xEE).selectedCommand = none ∧ (gotFrame 0x11 0xEE).cfg.lookup 0x11 = some ⟨0x11, 4⟩ ∧
    4 ≤ (gotFrame 0x11 0xEE).cfg.fmax := by decide

theorem witness_SubframeCallsTheWorkStep :
    gotSub.pc = .dispatch ∧ gotSub.hostInitDone = true ∧ gotSub.selectedCommand = some 0x11 := by decide

theorem witness_WorkStepResultReturnsToTheLoop :
    waiting.pc = .cmdWait ∧ genericFrame ≤ waiting.cfg.fmax ∧
    { waiting with wsResult := some WsResult.done }.wsResult = some .done ∧
    { waiting with wsResult := some WsResult.cont }.wsResult = some .cont := by decide

theorem witness_TokensActOnlyInTheirPhase :
    ((inLoop ref4 .guard).pc ≠ .dispatch ∧ (gotFrame 0x7F 0x80).hostInitDone = true) ∧
    ((gotByte 0x11).hostInitDone = false ∧ gotSub.selectedCommand.isSome = true) ∧
    (gotFrame 0x11 0xEE).selectedCommand = none := by decide

theorem witness_StartHoldsTheInputs :
    State.reset.pc = .idle ∧ (inLoop ref4 .stopped).pc = .stopped ∧ State.reset.cfg.quitByte ≠ State.reset.cfg.initByte ∧
    (State.resetWith clash).cfg.quitByte = (State.resetWith clash).cfg.initByte := by decide

theorem witness_EntryStartsAFreshSession :
    (inLoop Params.ref .entry).pc = .entry ∧
    Params.ref.cfgCheck (inLoop Params.ref .entry).inputs.caps (inLoop Params.ref .entry).inputs.timeout = none ∧
    Params.ref.cfgCheck allCaps 5 = none := by decide

theorem witness_EntryRaisesTheConfigurationError :
    (inLoop { Params.ref with capacity := 1 } .entry).pc = .entry ∧
    { Params.ref with capacity := 1 }.cfgCheck allCaps 0 = some .configBound := by decide

/-- Each capability alone absent; the bounds at `FMAX = 2` and one byte short, and a descriptor one byte too long. -/
theorem witness_CfgCheckTestsCapabilitiesFirst :
    ({ allCaps with tx := false }.tx = false ∧ { allCaps with irqGate := false }.irqGate = false ∧
      { allCaps with wdg := false }.wdg = false ∧ { allCaps with flash := false }.flash = false ∧
      { allCaps with timer := false }.timer = false ∧ { allCaps with log := false }.log = false ∧
      { Params.ref with logEnabled := true }.logEnabled = true ∧ (5 : Nat) ≠ 0) ∧
    (allCaps.tx = true ∧ allCaps.irqGate = true ∧ allCaps.wdg = true ∧ allCaps.flash = true ∧ allCaps.timer = true ∧
      allCaps.log = true) ∧
    (min { Params.ref with capacity := 1 }.capacity 8 < 2 ∧
      ({ Params.ref with registry := [⟨0x33, 9⟩] }.lookup 0x33 = some ⟨0x33, 9⟩ ∧ min Params.ref.capacity 8 < 9)) ∧
    (2 ≤ min Params.ref.capacity Params.ref.stagingSize ∧
      ∀ d ∈ Params.ref.registry, d.extraFrameBytes ≤ min Params.ref.capacity Params.ref.stagingSize) := by decide

theorem witness_ExitDisablesInterruptsLast : (inLoop Params.ref .exit).pc = .exit := rfl

theorem witness_EveryStepKeepsTheMemoryForm :
    MemOk (turn .engine fullDrain) ∧ ∃ t, step (turn .engine fullDrain) = .next t := ⟨by decide, _, rfl⟩

theorem witness_EveryStepKeepsTheRingInvariant :
    RingOk (turn .rx { fullRing ref4 with uartPending := [5] }) ∧
    ∃ t, step (turn .rx { fullRing ref4 with uartPending := [5] }) = .next t := ⟨by decide, _, rfl⟩

theorem turn_sessionOk {s : State} (t : Turn) (h : SessionOk s) : SessionOk (turn t s) :=
  ⟨h.checked, h.expectedInRange, h.initFrame, h.commandFrame, h.selected, h.drainReady, h.frameLength, h.frameWritten,
    h.waiting, h.returned, h.running, h.ending, h.ended, h.armedIff, h.neverTimedOut⟩

theorem witness_EveryStepKeepsTheSessionInvariant :
    RingOk (turn .engine gotSub) ∧ SessionOk (turn .engine gotSub) ∧ ∃ t, step (turn .engine gotSub) = .next t :=
  ⟨by decide, turn_sessionOk _ gotSub_sessionOk, _, rfl⟩

/-- The faults a command unit can raise are reached in a state of a run. -/
theorem witness_RulesNeverReachTheModelFaults :
    RingOk (turn (.work [.request 9] .done) waiting) ∧ SessionOk (turn (.work [.request 9] .done) waiting) ∧
    0 < (turn (.work [.request 9] .done) waiting).cfg.capacity ∧
    ∃ t, step (turn (.work [.request 9] .done) waiting) = .next t ∧ t.fault = some .requestRange :=
  ⟨by decide, turn_sessionOk _ waiting_sessionOk, by decide, _, rfl, rfl⟩

theorem witness_PhaseMovesAsAllowed :
    SessionOk (turn .engine (gotByte 0x7F)) ∧ ∃ t, step (turn .engine (gotByte 0x7F)) = .next t :=
  ⟨turn_sessionOk _ gotInit_sessionOk, _, rfl⟩

theorem witness_HandshakeChangesOnlyByInitAndEntry :
    (∃ t, step (turn .engine (gotByte 0x7F)) = .next t ∧ (gotByte 0x7F).hostInitDone = false ∧
      t.hostInitDone = true) ∧
    ∃ t, step (turn .engine { gotFrame 0 0 with pc := .entry }) = .next t ∧ (gotFrame 0 0).hostInitDone = true ∧
      t.hostInitDone = false :=
  ⟨⟨_, rfl, rfl, rfl⟩, _, rfl, rfl, rfl⟩

theorem witness_TimedOutChangesOnlyByExpiryAndEntry :
    (∃ t, step (turn .expire expiring) = .next t ∧ expiring.timedOut = false ∧ t.timedOut = true) ∧
    ∃ t, step (turn .engine { inLoop ref4 .entry with timedOut := true }) = .next t ∧ t.timedOut = false :=
  ⟨⟨_, rfl, rfl, rfl⟩, _, rfl, rfl⟩

theorem witness_NoEndWhileACommandIsActive :
    SessionOk (turn .engine (gotByte 0xA5)) ∧
    ∃ t, step (turn .engine (gotByte 0xA5)) = .next t ∧ t.pc = .exit ∧ (gotByte 0xA5).pc ≠ .exit :=
  ⟨turn_sessionOk _ gotQuit_sessionOk, _, rfl, rfl, by decide⟩

theorem witness_ConfigurationIsFixedForASession :
    ∃ t, step (turn (.start allCaps 5 7) State.reset) = .next t ∧ t.inputs ≠ State.reset.inputs :=
  ⟨_, rfl, by decide⟩

theorem witness_SubframesAreOpaqueToTheEngine :
    gotSub.pc = .dispatch ∧ phase gotSub = .executingCommand ∧ ∃ t, exec .dispatch gotSub = .next t :=
  ⟨rfl, rfl, _, rfl⟩

theorem witness_HistoryOnlyGrows :
    (inLoop ref4 .wdg).pc ≠ .entry ∧ ∃ t, step (turn .engine (inLoop ref4 .wdg)) = .next t :=
  ⟨by decide, _, rfl⟩

theorem witness_GateClosesOnlyAtExitInAFaultingDrainOrByThePlatform :
    (∃ t, step (turn .engine (inLoop ref4 .exit)) = .next t ∧ (inLoop ref4 .exit).ie = true ∧ t.ie = false) ∧
    (∃ t, step (turn .engine (inLoop ref4 .drain)) = .next t ∧ t.ie = false) ∧
    ∃ t, step (turn (.platformSetsGate false) State.reset) = .next t ∧ t.ie = false :=
  ⟨⟨_, rfl, rfl, rfl⟩, ⟨_, rfl, rfl⟩, _, rfl, rfl⟩

end Sys2Proof.Tests
end

section
/-!
Proofs about the ring buffer operations (40_ring_buffer.md).
-/

namespace Sys2Proof.Machine

/-- RB_RESET answers in every state. -/
theorem exec_rbReset (s : State) : exec .rbReset s = .next (resetRing s) := rfl

@[simp] theorem resetRing_buf (s : State) : (resetRing s).rb.buf = [] := rfl

/-- A ring cell reads as a byte exactly when it lies in the ring and holds that byte (R13, R36). -/
theorem ringRead_ok_iff {s : State} {i : Nat} {b : Byte} :
    ringRead s i = .ok b ↔ i < s.cfg.capacity ∧ readCell s.rb.buf i = some b := memRead_ok_iff

/-- Every cell is UNWRITTEN after RB_RESET. -/
theorem ringRead_resetRing_ne_ok (s : State) (i : Nat) (b : Byte) : ringRead (resetRing s) i ≠ .ok b := by
  simp [ringRead_ok_iff]

/-- Settles O16: RB_RESET installs the empty ring, and a ring that lists no cell has none to read. -/
theorem rbResetEmptiesTheRing : Obligations.RbResetEmptiesTheRing := by
  intro s
  refine ⟨exec_rbReset s, fun t ht i b => ?_⟩
  obtain rfl : resetRing s = t := by simpa [exec_rbReset] using ht
  exact ringRead_resetRing_ne_ok s i b

end Sys2Proof.Machine
end

section
/-!
Proofs about VALIDATE (41_checksum.md).
-/

namespace Sys2Proof.Machine

/-- VALIDATE's loop ends with `x` folded over every byte but the last (R69). -/
theorem validateFrom_append_singleton (x : Byte) (front : List Byte) (c : Byte) :
    validateFrom x (front ++ [c]) = (~~~(front.foldl (· ^^^ ·) x) == c) := by
  induction front generalizing x with
  | nil => rfl
  | cons b rest ih =>
    calc validateFrom x (b :: rest ++ [c])
        = validateFrom (x ^^^ b) (rest ++ [c]) := by cases rest <;> rfl
      _ = (~~~((b :: rest).foldl (· ^^^ ·) x) == c) := ih (x ^^^ b)

/-- The final byte alone is compared with the complement of the XOR of the others (R69). -/
theorem validate_append_singleton (front : List Byte) (c : Byte) :
    validate (front ++ [c]) = (~~~(front.foldl (· ^^^ ·) 0x00) == c) :=
  validateFrom_append_singleton 0x00 front c

/-- Exactly one final byte passes after given non-final bytes (R70). -/
theorem validate_append_singleton_iff {front : List Byte} {c : Byte} :
    validate (front ++ [c]) = true ↔ c = ~~~(front.foldl (· ^^^ ·) 0x00) := by
  rw [validate_append_singleton, beq_iff_eq, eq_comm]

/-- The order of the non-final bytes does not matter, for XOR is associative and commutative (R70). -/
theorem validate_append_singleton_congr_perm {front front' : List Byte} (h : front.Perm front') (c : Byte) :
    validate (front ++ [c]) = validate (front' ++ [c]) := by
  have hswap (x b b' : Byte) : x ^^^ b ^^^ b' = x ^^^ b' ^^^ b := by
    rw [BitVec.xor_assoc, BitVec.xor_comm b b', ← BitVec.xor_assoc]
  have hxor : front.foldl (· ^^^ ·) (0x00 : Byte) = front'.foldl (· ^^^ ·) 0x00 :=
    h.foldl_eq' (fun b _ b' _ x => hswap x b b') 0x00
  rw [validate_append_singleton, validate_append_singleton, hxor]

/-- A command-selection frame passes exactly when its checksum is the complement of its opcode (R69, R70). -/
theorem validate_pair_iff {o k : Byte} : validate [o, k] = true ↔ k = ~~~o := by
  simpa using validate_append_singleton_iff (front := [o]) (c := k)

/-- A byte is another's complement exactly when the two XOR to 0xFF. -/
theorem eq_not_iff_xor_eq_ff {o k : Byte} : k = ~~~o ↔ o ^^^ k = 0xFF := by
  have hff : (0xFF : Byte) = o ^^^ ~~~o := by
    rw [← BitVec.xor_allOnes, ← BitVec.xor_assoc, BitVec.xor_self, BitVec.zero_xor]; rfl
  rw [hff, BitVec.xor_right_inj]

/-- Settles O11: the complement of the XOR of the non-final bytes is the one final byte that passes, and XOR does not
see their order. -/
theorem validateLaws : Obligations.ValidateLaws := by
  refine ⟨fun _ _ c h => validate_append_singleton_congr_perm h c,
    fun o k => validate_pair_iff.trans eq_not_iff_xor_eq_ff, fun front => ?_, fun o k => validate_pair_iff⟩
  exact ⟨_, validate_append_singleton_iff.mpr rfl, fun _ => validate_append_singleton_iff.mp⟩

end Sys2Proof.Machine
end

section
/-!
Proofs about ALARM_ARM and TICK (42_timer.md).
-/

namespace Sys2Proof.Machine

/-- ALARM_ARM answers in every state. -/
theorem exec_alarmArm (timeout : Nat) (s : State) : exec (.alarmArm timeout) s = .next (arm timeout s) := rfl

/-- TICK(d) answers in every state: the clock has no enabling condition (R74). -/
theorem exec_tick (d : Nat) (s : State) : exec (.tick d) s = .next (s.setNow (s.now + d)) := rfl

/-- Settles O18: ALARM_ARM runs the arming that ENTRY shares, whose two cases `arm_eq` gives field by field. -/
theorem alarmArmSetsTheDeadline : Obligations.AlarmArmSetsTheDeadline := by
  intro timeout s
  rw [exec_alarmArm, arm_eq]

/-- Settles O19: TICK is one write of the clock. -/
theorem tickAdvancesTheClock : Obligations.TickAdvancesTheClock := by
  intro d s
  rw [exec_tick, State.setNow]

end Sys2Proof.Machine
end

section
/-!
Proofs about GUARD, AVAIL and DISPATCH (44_engine.md).
-/

namespace Sys2Proof.Machine

/-! GUARD and AVAIL at their control points, each as one answer. -/

/-- The loop guard fails exactly when the alarm expired before the handshake (R77). -/
theorem guardHolds_eq_false_iff {s : State} :
    guardHolds s = false ↔ s.timedOut = true ∧ s.hostInitDone = false := by
  simp [guardHolds]

/-- GUARD (R89) at its control point. -/
theorem exec_guard_at {s : State} (hpc : s.pc = .guard) :
    exec .guard s = .next (if guardHolds s = false then raiseEnd .timeout s else s.setPc .wdg) := by
  simp only [exec, execGuard, hpc, if_true]
  cases guardHolds s <;> rfl

/-- AVAIL (R91) at its control point. -/
theorem exec_avail_at {s : State} (hpc : s.pc = .avail) :
    exec .avail s = .next (s.setPc (if s.rb.count < s.expectedByteCount then .guard else .drain)) := by
  simp only [exec, execAvail, hpc, if_true]
  split <;> rfl

/-- Settles O28: the guard's answer decides between `raise End` and WDG. -/
theorem guardTestsTheTimeout : Obligations.GuardTestsTheTimeout := by
  intro s hpc
  simp only [exec_guard_at hpc, guardHolds_eq_false_iff, raiseEnd, State.setEndCause, State.setPc]

/-- Settles O30: AVAIL writes the control point alone, chosen by the byte count. -/
theorem availComparesTheByteCount : Obligations.AvailComparesTheByteCount := by
  intro s hpc
  rw [exec_avail_at hpc, State.setPc]

/-- At DISPATCH the session's fields alone say the phase (R25). -/
theorem phase_at_dispatch {s : State} (hpc : s.pc = .dispatch) :
    phase s =
      if s.hostInitDone = true then
        if s.selectedCommand.isSome = true then .executingCommand else .awaitingCommand
      else .awaitingInit := by
  simp [phase_eq, hpc]

/-- Before the handshake one readable byte is a whole frame (R50, R56). -/
theorem stagedToken_of_awaitingInit {s : State} {b : Byte} (hp : phase s = .awaitingInit)
    (hb : stagingRead s 0 = .ok b) : stagedToken s = some (decodeW1 s.cfg b) := by
  simp [stagedToken, stagedFormat, hp, Format.size, stagingBytes, hb, decode]

/-- With no command active two readable bytes are a whole frame (R51, R56). -/
theorem stagedToken_of_awaitingCommand {s : State} {o k : Byte} (hp : phase s = .awaitingCommand)
    (ho : stagingRead s 0 = .ok o) (hk : stagingRead s 1 = .ok k) :
    stagedToken s = some (decodeW2 s.cfg o k) := by
  simp [stagedToken, stagedFormat, hp, Format.size, genericFrame, checksumSize, stagingBytes, ho, hk, decode]

/-- While a command is active DISPATCH is the call of its work step (R93, R100). -/
theorem exec_dispatch_eq_wsCall {s : State} {op : Byte} (hpc : s.pc = .dispatch) (hp : phase s = .executingCommand)
    (hop : s.selectedCommand = some op) : exec .dispatch s = exec (.wsCall op) s := by
  simp [exec, execDispatch, dispatchHandler, execWsCall, dispatchIn, hpc, hp, hop]

/-- Settles O31: DISPATCH runs the token staged in its phase (`exec_stagedToken`), and the decoder makes the rule's
tests in the rule's order; with a command active it is the work-step call. -/
theorem dispatchRunsOneHandler : Obligations.DispatchRunsOneHandler := by
  intro s hpc
  have hphase := phase_at_dispatch hpc
  refine ⟨fun hinit b hb => ?_, fun hinit hsel o k ho hk => ?_, fun hinit op hsel => ?_⟩
  · have hp : phase s = .awaitingInit := by simpa [hinit] using hphase
    rw [← exec_stagedToken hpc (stagedToken_of_awaitingInit hp hb), decodeW1]
    split
    · rfl
    · split <;> rfl
  · have hp : phase s = .awaitingCommand := by simpa [hinit, hsel] using hphase
    rw [← exec_stagedToken hpc (stagedToken_of_awaitingCommand hp ho hk), decodeW2]
    simp only [Bool.not_eq_true', Option.isNone_iff_eq_none]
    split
    · rfl
    · split <;> rfl
  · exact exec_dispatch_eq_wsCall hpc (by simpa [hinit, hsel] using hphase) hsel

end Sys2Proof.Machine
end

section
/-!
Proofs about EXIT (60_exceptions.md).
-/

namespace Sys2Proof.Machine

/-- EXIT (R110) at its control point. -/
theorem exec_exit_at {s : State} (c : Option EndCause) (hpc : s.pc = .exit) :
    exec (.exit c) s = .next (endSession c s) := by
  simp only [exec, execExit, hpc, if_true]

/-- The session returns true exactly for the causes QUIT and TIMEOUT (R110). -/
theorem endResult_eq_decide (c : Option EndCause) :
    endResult c = decide (c = some .quit ∨ c = some .timeout) := by
  cases c with
  | none => rfl
  | some c => cases c <;> rfl

/-- Disarming an alarm under a condition writes its `enabled` field alone. -/
theorem Alarm.ite_disabled_eq (p : Prop) [Decidable p] (a : Alarm) :
    (if p then { a with enabled := false } else a) = { a with enabled := if p then false else a.enabled } := by
  split <;> rfl

/-- Settles O47: at its control point EXIT is the session-ending sequence, which `endSession_eq` gives field by field;
the Boolean it returns is decided by the cause. -/
theorem exitDisablesInterruptsLast : Obligations.ExitDisablesInterruptsLast := by
  intro c s hpc
  rw [exec_exit_at c hpc, endSession_eq, Alarm.ite_disabled_eq, endResult_eq_decide]

end Sys2Proof.Machine
end

section
/-!
Proofs about the decoder and the encoder (30_encoding.md): decoding and encoding are inverse, format by format.
-/

namespace Sys2Proof

/-! The decoder on the frames each row encodes to. -/

@[simp] theorem decodeW1_initByte (p : Params) : decodeW1 p p.initByte = .init := by simp [decodeW1]

/-- With different sentinels the byte `QUIT_BYTE` is a QUIT (R50). -/
theorem decodeW1_quitByte {p : Params} (h : p.quitByte ≠ p.initByte) : decodeW1 p p.quitByte = .quit := by
  simp [decodeW1, h]

theorem decodeW1_noise {p : Params} {b : Byte} (hi : b ≠ p.initByte) (hq : b ≠ p.quitByte) :
    decodeW1 p b = .noise b := by
  simp [decodeW1, hi, hq]

/-- The checksum is tested before the registry (R51). -/
theorem decodeW2_badsum (p : Params) {o k : Byte} (h : k ≠ ~~~o) : decodeW2 p o k = .cmdBadsum o k := by
  simp [decodeW2, mt Machine.validate_pair_iff.mp h]

theorem decodeW2_unsupported {p : Params} {o : Byte} (h : p.lookup o = none) :
    decodeW2 p o (~~~o) = .cmdUnsupported o := by
  simp [decodeW2, Machine.validate_pair_iff.mpr, h]

theorem decodeW2_select {p : Params} {o : Byte} {d : Descriptor} (h : p.lookup o = some d) :
    decodeW2 p o (~~~o) = .cmdSelect o := by
  simp [decodeW2, Machine.validate_pair_iff.mpr, h]

/-- Settles O7: by cases on the row, each frame meets the decoder's test for its own row; an OP row has no format. -/
theorem decodeOfEncodeIsTheOperation : Obligations.DecodeOfEncodeIsTheOperation := by
  intro p i f bs rest hwf hf he
  cases i with
  | init => cases hf; cases he; simp [decode]
  | quit =>
    cases hf; cases he
    simp [decode, decodeW1_quitByte (by simpa [WellFormed] using hwf : p.quitByte ≠ p.initByte)]
  | noise b =>
    cases hf; cases he
    obtain ⟨hi, hq⟩ : b ≠ p.initByte ∧ b ≠ p.quitByte := by simpa [WellFormed] using hwf
    simp [decode, decodeW1_noise hi hq]
  | cmdBadsum o k =>
    cases hf; cases he
    simp [decode, decodeW2_badsum p (by simpa [WellFormed] using hwf : k ≠ ~~~o)]
  | cmdUnsupported o =>
    cases hf; cases he
    simp [decode, decodeW2_unsupported (by simpa [WellFormed] using hwf : p.lookup o = none)]
  | cmdSelect o =>
    cases hf; cases he
    obtain ⟨d, hd⟩ := Option.isSome_iff_exists.mp hwf
    simp [decode, decodeW2_select hd]
  | subframe bs => cases hf; cases he; simp [decode]
  | txAck => cases hf; cases he; simp [decode, decodeT1, Except.map]
  | txNack => cases hf; cases he; simp [decode, decodeT1, Except.map]
  | txData b => cases hf; cases he; simp [decode, decodeT1, Except.map]
  | _ => cases hf

/-! What the decoder answers is well formed and is the frame it read. -/

/-- `i` is an operand the spec allows, of the format `f`, and its bytes are `bs`. -/
def IsFrame (p : Params) (f : Format) (i : Instr) (bs : List Byte) : Prop :=
  WellFormed p i = true ∧ formatOf i = some f ∧ encode p i = some bs

theorem isFrame_decodeW1 (p : Params) (b : Byte) : IsFrame p .w1 (decodeW1 p b) [b] := by
  by_cases hi : b = p.initByte
  · subst hi; rw [decodeW1_initByte]; exact ⟨rfl, rfl, rfl⟩
  by_cases hq : b = p.quitByte
  · subst hq; rw [decodeW1_quitByte hi]; exact ⟨by simpa [WellFormed] using hi, rfl, rfl⟩
  · rw [decodeW1_noise hi hq]; exact ⟨by simp [WellFormed, hi, hq], rfl, rfl⟩

theorem isFrame_decodeW2 (p : Params) (o k : Byte) : IsFrame p .w2 (decodeW2 p o k) [o, k] := by
  by_cases hk : k = ~~~o
  · subst hk
    cases hl : p.lookup o with
    | none => rw [decodeW2_unsupported hl]; exact ⟨by simp [WellFormed, hl], rfl, rfl⟩
    | some d => rw [decodeW2_select hl]; exact ⟨by simp [WellFormed, hl], rfl, rfl⟩
  · rw [decodeW2_badsum p hk]; exact ⟨by simpa [WellFormed] using hk, rfl, rfl⟩

theorem isFrame_subframe {p : Params} {bs : List Byte} (h : bs.length ≤ p.fmax) :
    IsFrame p (.w3 bs.length) (.subframe bs) bs :=
  ⟨by simpa [WellFormed] using h, rfl, rfl⟩

theorem isFrame_of_decodeT1 {p : Params} {sender : Sender} {b : Byte} {i : Instr}
    (h : decodeT1 p sender b = .ok i) : IsFrame p (.t1 sender) i [b] := by
  cases sender with
  | onInit =>
    simp only [decodeT1] at h
    split at h
    · next hb => cases h; exact ⟨rfl, rfl, by simp [encode, hb]⟩
    · cases h
  | onUnsupported =>
    simp only [decodeT1] at h
    split at h
    · next hb => cases h; exact ⟨rfl, rfl, by simp [encode, hb]⟩
    · cases h
  | workStep => cases h; exact ⟨rfl, rfl, rfl⟩

/-- Whatever is decoded is the frame cut from the front of the bytes (R58). -/
theorem isFrame_of_decode {p : Params} {f : Format} {bs rest : List Byte} {i : Instr}
    (hw3 : ∀ n, f = .w3 n → n ≤ p.fmax) (h : decode p f bs = .ok (i, rest)) :
    ∃ x, IsFrame p f i x ∧ bs = x ++ rest := by
  cases f with
  | w1 =>
    match bs, h with
    | b :: _, h => cases h; exact ⟨[b], isFrame_decodeW1 p b, rfl⟩
  | w2 =>
    match bs, h with
    | o :: k :: _, h => cases h; exact ⟨[o, k], isFrame_decodeW2 p o k, rfl⟩
  | w3 n =>
    simp only [decode] at h
    split at h
    · next hn =>
      cases h
      have hlen : (bs.take n).length = n := List.length_take_of_le hn
      refine ⟨bs.take n, ?_, (List.take_append_drop n bs).symm⟩
      have hfit : (bs.take n).length ≤ p.fmax := hlen.symm ▸ hw3 n rfl
      have hframe := isFrame_subframe hfit
      rwa [hlen] at hframe
    · cases h
  | t1 sender =>
    match bs, h with
    | b :: _, h =>
      simp only [decode] at h
      cases hd : decodeT1 p sender b with
      | error e => rw [hd] at h; cases h
      | ok j => rw [hd] at h; cases h; exact ⟨[b], isFrame_of_decodeT1 hd, rfl⟩

/-- Settles O8: format by format, the frame read is the encoding of what was decoded. -/
theorem encodeOfDecodeIsTheFrame : Obligations.EncodeOfDecodeIsTheFrame := by
  intro p f bs rest i hw3 h
  obtain ⟨x, ⟨hwf, hf, he⟩, hbs⟩ := isFrame_of_decode hw3 h
  exact ⟨hwf, hf, x, he, hbs⟩

/-- Settles O9: the checksum parts the frames first, then the registry (R51). -/
theorem everyCommandFrameIsOneToken : Obligations.EveryCommandFrameIsOneToken := by
  intro p o k rest
  refine ⟨fun hk => ?_, fun hk hl => ?_, fun d hk hl => ?_⟩
  · rw [decode, decodeW2_badsum p hk]
  · rw [decode, hk, decodeW2_unsupported hl]
  · rw [decode, hk, decodeW2_select hl]

/-- Settles O6: six frames, evaluated. -/
theorem writtenOutFramesDecode : Obligations.WrittenOutFramesDecode :=
  ⟨rfl, rfl, rfl, rfl, rfl, rfl⟩

end Sys2Proof
end

section
/-!
VALIDATE executed by itself (41_checksum.md).
-/

namespace Sys2Proof.Machine

/-- Settles O10: VALIDATE's loop is the fold over all bytes but the last (`validate_append_singleton`). -/
theorem validateComparesTheComplement : Obligations.ValidateComparesTheComplement := by
  refine ⟨fun frame s => rfl, rfl, fun front c => ?_⟩
  rw [validate_append_singleton]; rfl

end Sys2Proof.Machine
end

section
/-!
The ring as a queue (40_ring_buffer.md): its cells counted from the oldest byte, what PUSH and DRAIN make of them, and
that they keep the ring's invariant (R19).
-/

namespace Sys2Proof.Machine

/-- The ring's cell `k` places past the oldest byte (R18). -/
def Ring.cell (cap : Nat) (r : Ring) (k : Nat) : Option Byte := readCell r.buf ((r.head + k) % cap)

/-- The ring's invariant (R19), of the ring and its capacity alone. -/
def Ring.Ok (cap : Nat) (r : Ring) : Prop :=
  r.count ≤ cap ∧ (r.head < cap ∨ r.head = 0) ∧ r.tail = (r.head + r.count) % cap ∧
    ∀ k < r.count, (r.cell cap k).isSome = true

theorem ringOk_iff (s : State) : RingOk s ↔ s.rb.Ok s.cfg.capacity := Iff.rfl

/-- The buffered bytes, oldest first (R67). -/
def Ring.queue (cap : Nat) (r : Ring) : List (Option Byte) := (List.range r.count).map (r.cell cap)

theorem bufferedFrom_eq_map (s : State) (n k : Nat) :
    bufferedFrom s n k = (List.range' k n).map (s.rb.cell s.cfg.capacity) := by
  induction n generalizing k with
  | zero => rfl
  | succ n ih => rw [bufferedFrom, ih, List.range'_succ, List.map_cons]; rfl

theorem buffered_eq_queue (s : State) : buffered s = s.rb.queue s.cfg.capacity := by
  rw [buffered, bufferedFrom_eq_map, Ring.queue, List.range_eq_range']

theorem frameCells_eq_map (s : State) (n k : Nat) :
    frameCells s n k = (List.range' k n).map (readCell s.staging) := by
  induction n generalizing k with
  | zero => rfl
  | succ n ih => rw [frameCells, ih, List.range'_succ, List.map_cons]

theorem currentFrame_eq_map (s : State) : currentFrame s = (List.range s.stagedLen).map (readCell s.staging) := by
  rw [currentFrame, frameCells_eq_map, List.range_eq_range']

/-! What PUSH and DRAIN make of the ring. -/

/-- PUSH with room in the ring (R63). -/
def Ring.pushed (cap : Nat) (b : Byte) (r : Ring) : Ring :=
  { r with buf := writeCell r.buf r.tail b, tail := (r.tail + 1) % cap, count := r.count + 1 }

/-- PUSH into a full ring that overwrites its oldest byte (R63). -/
def Ring.overwritten (cap : Nat) (b : Byte) (r : Ring) : Ring :=
  { r with
    buf := writeCell r.buf r.tail b, tail := (r.tail + 1) % cap, head := (r.tail + 1) % cap, ovf := r.ovf + 1 }

/-- DRAIN of `n` bytes (R64). -/
def Ring.drained (cap n : Nat) (r : Ring) : Ring := { r with head := (r.head + n) % cap, count := r.count - n }

/-- Two places less than a capacity apart have different indices. -/
theorem ring_index_ne {cap h j k : Nat} (hjk : j < k) (hk : k < j + cap) : (h + j) % cap ≠ (h + k) % cap := by
  intro heq
  have hzero : (h + k - (h + j)) % cap = 0 := Nat.sub_mod_eq_zero_of_mod_eq heq.symm
  have hle : cap ≤ h + k - (h + j) := Nat.le_of_dvd (by omega) (Nat.dvd_of_mod_eq_zero hzero)
  omega

variable {cap n k : Nat} {r : Ring} {b : Byte}

theorem Ring.Ok.tail_lt (hr : r.Ok cap) (hcap : 0 < cap) : r.tail < cap := by
  obtain ⟨-, -, htail, -⟩ := hr
  rw [htail]; exact Nat.mod_lt _ hcap

/-- The invariant's last clause, of the queue. -/
theorem Ring.isSome_cell_iff_queue :
    (∀ k < r.count, (r.cell cap k).isSome = true) ↔ ∀ x ∈ r.queue cap, x.isSome = true := by
  simp [Ring.queue]

theorem Ring.cell_pushed (hr : r.Ok cap) (hc : r.count < cap) (hk : k ≤ r.count) :
    (r.pushed cap b).cell cap k = if k = r.count then some b else r.cell cap k := by
  obtain ⟨-, -, htail, -⟩ := hr
  simp only [Ring.cell, Ring.pushed, htail]
  by_cases hlast : k = r.count
  · simp [hlast]
  · rw [if_neg hlast, readCell_writeCell_other _ _ (ring_index_ne (by omega) (by omega))]

theorem Ring.queue_pushed (hr : r.Ok cap) (hc : r.count < cap) :
    (r.pushed cap b).queue cap = r.queue cap ++ [some b] := by
  have hcount : (r.pushed cap b).count = r.count + 1 := rfl
  rw [Ring.queue, hcount, List.range_succ, List.map_append]
  congr 1
  · refine List.map_congr_left fun k hk => ?_
    have hk : k < r.count := List.mem_range.mp hk
    rw [Ring.cell_pushed hr hc (Nat.le_of_lt hk), if_neg (Nat.ne_of_lt hk)]
  · simp [Ring.cell_pushed hr hc]

/-- In a full ring the tail is the head, so the written cell becomes the newest and the next one the oldest. -/
theorem Ring.cell_overwritten (hr : r.Ok cap) (hfull : r.count = cap) (hk : k < cap) :
    (r.overwritten cap b).cell cap k = if k + 1 = cap then some b else r.cell cap (k + 1) := by
  obtain ⟨-, -, htail, -⟩ := hr
  have htail : r.tail = r.head % cap := by rw [htail, hfull, Nat.add_mod_right]
  have hindex : ((r.tail + 1) % cap + k) % cap = (r.head + (k + 1)) % cap := by
    rw [htail, Nat.mod_add_mod, Nat.add_assoc, Nat.mod_add_mod, Nat.add_comm 1 k]
  simp only [Ring.cell, Ring.overwritten, hindex]
  by_cases hlast : k + 1 = cap
  · simp [hlast, htail]
  · have hne : r.head % cap ≠ (r.head + (k + 1)) % cap := ring_index_ne (j := 0) (by omega) (by omega)
    rw [if_neg hlast, htail, readCell_writeCell_other _ _ hne.symm]

theorem Ring.queue_overwritten (hr : r.Ok cap) (hfull : r.count = cap) (hcap : 0 < cap) :
    (r.overwritten cap b).queue cap = (r.queue cap).tail ++ [some b] := by
  obtain ⟨c, rfl⟩ : ∃ c, cap = c + 1 := ⟨cap - 1, by omega⟩
  have hcount : (r.overwritten (c + 1) b).count = c + 1 := hfull
  have hold : (r.queue (c + 1)).tail = (List.range c).map fun k => r.cell (c + 1) (k + 1) := by
    rw [Ring.queue, hfull, List.range_succ_eq_map, List.map_cons, List.tail_cons, List.map_map]; rfl
  rw [hold, Ring.queue, hcount, List.range_succ, List.map_append]
  congr 1
  · refine List.map_congr_left fun k hk => ?_
    have hk : k < c := List.mem_range.mp hk
    rw [Ring.cell_overwritten hr hfull (by omega), if_neg (by omega)]
  · simp [Ring.cell_overwritten hr hfull]

theorem Ring.cell_drained : (r.drained cap n).cell cap k = r.cell cap (n + k) := by
  simp only [Ring.cell, Ring.drained, Nat.mod_add_mod, Nat.add_assoc]

theorem Ring.queue_drained : (r.drained cap n).queue cap = (r.queue cap).drop n := by
  have hcount : (r.drained cap n).count = r.count - n := rfl
  rw [Ring.queue, hcount, Ring.queue, ← List.map_drop, List.range_eq_range' (n := r.count), List.drop_range',
    List.range'_eq_map_range, List.map_map]
  exact List.map_congr_left fun k _ => by simp [Ring.cell_drained]

theorem Ring.queue_take (hn : n ≤ r.count) : (r.queue cap).take n = (List.range n).map (r.cell cap) := by
  rw [Ring.queue, ← List.map_take, List.take_range, Nat.min_eq_left hn]

/-! Each keeps the invariant. -/

theorem Ring.Ok.empty : Ring.Ok cap ⟨[], 0, 0, 0, 0⟩ := by simp [Ring.Ok]

theorem Ring.Ok.pushed (hr : r.Ok cap) (hc : r.count < cap) : (r.pushed cap b).Ok cap := by
  have hqueue := Ring.queue_pushed (b := b) hr hc
  obtain ⟨-, hhead, htail, hcells⟩ := hr
  refine ⟨hc, hhead, ?_, Ring.isSome_cell_iff_queue.mpr ?_⟩
  · simp only [Ring.pushed, htail, Nat.mod_add_mod, Nat.add_assoc]
  · rw [hqueue]
    simpa [or_imp, forall_and] using Ring.isSome_cell_iff_queue.mp hcells

theorem Ring.Ok.overwritten (hr : r.Ok cap) (hfull : r.count = cap) (hcap : 0 < cap) :
    (r.overwritten cap b).Ok cap := by
  have hqueue := Ring.queue_overwritten (b := b) hr hfull hcap
  obtain ⟨hcount, -, htail, hcells⟩ := hr
  refine ⟨hcount, .inl (Nat.mod_lt _ hcap), ?_, Ring.isSome_cell_iff_queue.mpr fun x hx => ?_⟩
  · simp only [Ring.overwritten, hfull, Nat.add_mod_right, Nat.mod_mod]
  · rw [hqueue] at hx
    rcases List.mem_append.mp hx with hx | hx
    · exact Ring.isSome_cell_iff_queue.mp hcells x (List.mem_of_mem_tail hx)
    · rw [List.mem_singleton.mp hx]; rfl

theorem Ring.Ok.drained (hr : r.Ok cap) (hn : n ≤ r.count) : (r.drained cap n).Ok cap := by
  obtain ⟨hcount, hhead, htail, hcells⟩ := hr
  refine ⟨Nat.sub_le_of_le_add (by omega), ?_, ?_, fun k hk => ?_⟩
  · rcases Nat.eq_zero_or_pos cap with hz | hpos
    · right; simp only [Ring.drained]; subst hz; rw [Nat.mod_zero]; omega
    · exact .inl (Nat.mod_lt _ hpos)
  · simp only [Ring.drained, Nat.mod_add_mod, htail]
    congr 1; omega
  · rw [Ring.cell_drained]
    simp only [Ring.drained] at hk
    exact hcells _ (by omega)

end Sys2Proof.Machine
end

section
/-!
PUSH and DRAIN as operations on the state (40_ring_buffer.md).
-/

namespace Sys2Proof.Machine

/-! PUSH. -/

theorem pushEnabled_iff {b : Byte} {s : State} :
    pushEnabled b s = true ↔ s.ie = true ∧ s.uartPending.head? = some b ∧ s.pc ≠ .stopped := by
  simp [pushEnabled, and_assoc]

/-- An enabled PUSH takes the byte from the pending ones and appends it (R63). -/
theorem exec_push_of_enabled {b : Byte} {s : State} (h : pushEnabled b s = true) :
    exec (.push b) s = (pushByte b (s.setPending s.uartPending.tail)).settle := by
  simp [exec, execPush, h]

theorem exec_push_of_masked {b : Byte} {s : State} (h : s.ie = false ∨ s.pc = .stopped) :
    exec (.push b) s = .next s := by
  have hoff : pushEnabled b s = false := by rcases h with h | h <;> simp [pushEnabled, h]
  simp [exec, execPush, hoff]

theorem exec_alarmExpire_of_disabled {s : State} (h : expireEnabled s = false) : exec .alarmExpire s = .next s := by
  simp [exec, execAlarmExpire, h]

/-- Settles O12: an enabled PUSH is `pushByte`, whose cases `pushByte_cases` lists. -/
theorem pushAppendsTheFirstPendingByte : Obligations.PushAppendsTheFirstPendingByte := by
  intro b bs s hpend hie hpc htail
  rw [exec_push_of_enabled (pushEnabled_iff.mpr ⟨hie, by rw [hpend]; rfl, hpc⟩), hpend, List.tail_cons]
  have hcases := pushByte_cases b (s.setPending bs)
  simp only [State.setPending_pc, State.setPending_cfg, State.setPending_rb] at hcases
  rcases hcases with ⟨hi, h⟩ | ⟨hi, hroom, -, h⟩ | ⟨hi, hfull, hpol, -, h⟩ |
    ⟨hi, hfull, hpol, h⟩ | ⟨hi, hout, -⟩
  · rw [h, if_pos hi]; rfl
  · rw [h, if_neg hi, if_pos hroom]; rfl
  · rw [h, if_neg hi, if_neg hfull, if_pos hpol]; rfl
  · have hkeep : s.cfg.overflowPolicy ≠ .overwriteOldest := by rw [hpol]; decide
    rw [h, if_neg hi, if_neg hfull, if_neg hkeep]; rfl
  · exact absurd htail (not_or.mpr ⟨hout, hi⟩)

/-- Settles O13: the gate and STOPPED mask both enabling conditions (R63, R75). -/
theorem maskedInterruptsStayPending : Obligations.MaskedInterruptsStayPending := by
  intro b s h
  refine ⟨exec_push_of_masked h, exec_alarmExpire_of_disabled ?_⟩
  rcases h with h | h <;> simp [expireEnabled, h]

/-- Settles O14: in each case of `exec_push_cases` the ring's memory is unchanged or written at the tail. -/
theorem pushWritesAtMostTheTailCell : Obligations.PushWritesAtMostTheTailCell := by
  intro b s t h
  rcases exec_push_cases h with ⟨-, rfl⟩ | ⟨-, -, rfl⟩ | ⟨-, -, -, -, rfl⟩ | ⟨-, -, -, -, -, rfl⟩ |
    ⟨-, -, -, -, rfl⟩ | ⟨-, -, -, rfl⟩
  · exact ⟨rfl, fun _ _ => rfl, fun _ => rfl⟩
  · exact ⟨rfl, fun _ _ => rfl, fun _ => rfl⟩
  · exact ⟨rfl, fun _ ha => readCell_writeCell_other _ _ ha, fun _ => rfl⟩
  · exact ⟨rfl, fun _ ha => readCell_writeCell_other _ _ ha, fun _ => rfl⟩
  · exact ⟨rfl, fun _ _ => rfl, fun _ => rfl⟩
  · exact ⟨rfl, fun _ _ => rfl, fun _ => rfl⟩

/-! DRAIN. -/

/-- Every field after a DRAIN of `n` bytes that left the staging memory `m` (R64). -/
def drainedState (n : Nat) (m : Mem) (s : State) : State :=
  { s with
    staging := m
    stagedLen := n
    rb := s.rb.drained s.cfg.capacity n
    ie := true
    hist := s.hist ++ [.irqDisable, .irqEnable]
    pc := .dispatch }

/-- DRAIN's loop in a ring that meets its invariant copies the `n` oldest bytes and leaves the other cells. -/
theorem copyFrame_oldest {s : State} {n : Nat} (hr : RingOk s) (hcap : 0 < s.cfg.capacity) (hn : n ≤ s.rb.count)
    (hs : n ≤ s.cfg.stagingSize) :
    ∃ m, copyFrame n 0 (irqDisable s) = .ok ((irqDisable s).setStaging m) ∧
      (∀ k < n, readCell m k = s.rb.cell s.cfg.capacity k) ∧
      ∀ a, n ≤ a → readCell m a = readCell s.staging a := by
  obtain ⟨-, -, -, hcells⟩ := (ringOk_iff s).mp hr
  obtain ⟨t, ht, hcopied⟩ := copyFrame_ok n 0 (irqDisable s) (by simpa [irqDisable] using hs) fun j hj => by
    simpa [irqDisable] using ⟨Nat.mod_lt _ hcap, hcells j (by omega)⟩
  have hends := copyFrame_ends n 0 (irqDisable s)
  rw [ht] at hends
  obtain ⟨hstate, -, -, hothers⟩ := hends
  refine ⟨t.staging, hstate ▸ ht, fun k hk => ?_, fun a ha => hothers a (.inr (by omega))⟩
  simpa [irqDisable, Ring.cell] using hcopied k hk

/-- DRAIN (R64) at its control point. -/
theorem exec_drain_at {s : State} (n : Nat) (hpc : s.pc = .drain) :
    exec (.drain n) s = (drainFrame n s).settle := by
  simp only [exec, execDrain, hpc, if_true]

/-- DRAIN at its control point in a ring that meets its invariant. -/
theorem exec_drain_of_ringOk {s : State} {n : Nat} (hpc : s.pc = .drain) (hr : RingOk s) (hcap : 0 < s.cfg.capacity)
    (hn : n ≤ s.rb.count) (hs : n ≤ s.cfg.stagingSize) :
    ∃ m, exec (.drain n) s = .next (drainedState n m s) ∧
      (∀ k < n, readCell m k = s.rb.cell s.cfg.capacity k) ∧
      ∀ a, n ≤ a → readCell m a = readCell s.staging a := by
  obtain ⟨m, hcopy, hcells, hothers⟩ := copyFrame_oldest hr hcap hn hs
  refine ⟨m, ?_, hcells, hothers⟩
  have henough : ¬ (irqDisable s).rb.count < n := Nat.not_lt.mpr hn
  rw [exec_drain_at n hpc, drainFrame, if_neg henough, hcopy]
  simp [drainedState, Ring.drained, irqDisable, irqEnable, State.emit, State.setIe, State.setRing, State.setStaging,
    State.setStagedLen, State.setPc]

/-- Settles O15: the three cases are DRAIN in a ring that meets its invariant, the underflow, and no step. -/
theorem drainDeliversTheOldestBytes : Obligations.DrainDeliversTheOldestBytes := by
  intro n s
  refine ⟨fun hpc hn hs hcap hr => ?_, fun hpc hc => ?_, fun hpc => ?_⟩
  · obtain ⟨m, hexec, hcells, hothers⟩ := exec_drain_of_ringOk hpc hr hcap hn hs
    exact ⟨_, hexec, rfl, hcells, hothers⟩
  · have hc' : (irqDisable s).rb.count < n := hc
    rw [exec_drain_at n hpc, drainFrame, if_pos hc']
    rfl
  · simp [exec, execDrain, hpc]

/-- What an enabled PUSH past ENTRY makes of a ring that meets its invariant: its tail is inside, so it never faults. -/
theorem exec_push_ring_cases {b : Byte} {s t : State} (hr : RingOk s) (hcap : 0 < s.cfg.capacity)
    (hpc : ¬ (s.pc = .idle ∨ s.pc = .entry)) (he : pushEnabled b s = true) (h : exec (.push b) s = .next t) :
    t.cfg = s.cfg ∧
      ((s.rb.count < s.cfg.capacity ∧ t.rb = s.rb.pushed s.cfg.capacity b) ∨
      (¬ s.rb.count < s.cfg.capacity ∧ s.cfg.overflowPolicy = .overwriteOldest ∧
        t.rb = s.rb.overwritten s.cfg.capacity b) ∨
      (¬ s.rb.count < s.cfg.capacity ∧ s.cfg.overflowPolicy = .dropNewest ∧
        t.rb = { s.rb with ovf := s.rb.ovf + 1 })) := by
  rcases exec_push_cases h with ⟨hoff, -⟩ | ⟨-, hi, -⟩ | ⟨-, -, hroom, -, rfl⟩ | ⟨-, -, hfull, hpol, -, rfl⟩ |
    ⟨-, -, hfull, hpol, rfl⟩ | ⟨-, -, hout, -⟩
  · rw [he] at hoff; cases hoff
  · exact absurd hi hpc
  · exact ⟨rfl, .inl ⟨hroom, rfl⟩⟩
  · exact ⟨rfl, .inr (.inl ⟨hfull, hpol, rfl⟩)⟩
  · exact ⟨rfl, .inr (.inr ⟨hfull, hpol, rfl⟩)⟩
  · exact absurd (Ring.Ok.tail_lt ((ringOk_iff s).mp hr) hcap) hout

/-- Settles O17: the queue lemmas of the ring, read through `buffered`. -/
theorem ringIsAQueue : Obligations.RingIsAQueue := by
  intro s hr hcap hidle hentry
  have hok := (ringOk_iff s).mp hr
  refine ⟨fun b t he h => ?_, fun n t hpc hn hs h => ?_⟩
  · obtain ⟨hcfg, hcases⟩ := exec_push_ring_cases hr hcap (not_or.mpr ⟨hidle, hentry⟩) he h
    rw [buffered_eq_queue, buffered_eq_queue, hcfg]
    rcases hcases with ⟨hroom, hrb⟩ | ⟨hfull, hpol, hrb⟩ | ⟨hfull, hpol, hrb⟩ <;> rw [hrb]
    · exact ⟨fun _ => Ring.queue_pushed hok hroom, fun hc => by omega, fun hc => by omega⟩
    · refine ⟨fun hc => absurd hc hfull, fun hc _ => ⟨Ring.queue_overwritten hok hc hcap, rfl⟩, fun _ hd => ?_⟩
      rw [hpol] at hd; cases hd
    · refine ⟨fun hc => absurd hc hfull, fun _ ho => ?_, fun _ _ => ⟨rfl, rfl⟩⟩
      rw [hpol] at ho; cases ho
  · obtain ⟨m, hexec, hcells, -⟩ := exec_drain_of_ringOk hpc hr hcap hn hs
    obtain rfl : drainedState n m s = t := by simpa [hexec] using h
    rw [currentFrame_eq_map, buffered_eq_queue, buffered_eq_queue, Ring.queue_take hn]
    exact ⟨List.map_congr_left fun k hk => hcells k (List.mem_range.mp hk), Ring.queue_drained⟩

end Sys2Proof.Machine
end

section
/-!
What one step keeps of the two memories and of the ring (20_memory.md, 10_state.md section 2), one case per `Move`.
-/

namespace Sys2Proof.Machine

/-- The state ENTRY starts a session in (R126). -/
def freshSession (s : State) : State :=
  { s with
    rb := ⟨[], 0, 0, 0, 0⟩
    hostInitDone := false
    timedOut := false
    expectedByteCount := 1
    staging := []
    stagedLen := 0
    selectedCommand := none
    pc := .guard
    endCause := none
    result := none
    armed := decide (s.inputs.timeout ≠ 0)
    alarm := if s.inputs.timeout = 0 then s.alarm else ⟨some (s.now + s.inputs.timeout), true⟩
    hist := if s.inputs.timeout = 0 then []
      else [.getTime s.now, .setAlarm (s.now + s.inputs.timeout), .alarmEnable]
    fault := none
    wsResult := none }

/-- ENTRY's writes after a passed check, as one state. -/
theorem entry_writes_eq (s : State) :
    (arm s.inputs.timeout (((((((resetRing (entryClear s)).setInitDone false).setTimedOut false).setSelected
      none).setStagedLen 0).setStaging []).setExpected 1)).setPc .guard = freshSession s := by
  by_cases h : s.inputs.timeout = 0 <;>
    simp [h, arm_eq, freshSession, resetRing, entryClear, State.clearHist, State.setFault, State.setArmed,
      State.setEndCause, State.setResult, State.setWsResult, State.setRing, State.setInitDone, State.setTimedOut,
      State.setSelected, State.setStagedLen, State.setStaging, State.setExpected, State.setPc]

/-- The state a work step's effects end in, written out. -/
theorem WorkFrame.exists_eq {s t : State} (h : WorkFrame s t) :
    ∃ n v es, (n = s.expectedByteCount ∨ n ≤ s.cfg.fmax) ∧
      t = { s with expectedByteCount := n, cmdPriv := v, hist := s.hist ++ es } := by
  obtain ⟨heq, ⟨es, hes⟩, hn⟩ := h
  exact ⟨t.expectedByteCount, t.cmdPriv, es, hn, hes ▸ heq⟩

variable {turn : Turn} {s t : State}

/-! The memories. -/

theorem copyFrame_ends_memOk (n k : Nat) (hs : MemOk s) : (copyFrame n k s).Ends MemOk := by
  obtain ⟨hring, hstg, hringb, hstgb⟩ := hs
  have hends := copyFrame_ends n k s
  generalize copyFrame n k s = x at hends ⊢
  have hkeep (t : State) (ht : t = s.setStaging t.staging) (hwf : Mem.wf t.staging = true)
      (hb : Mem.below s.cfg.stagingSize t.staging = true) : MemOk t := by
    rw [ht]; exact ⟨hring, hwf, hringb, hb⟩
  cases x with
  | ok t => obtain ⟨ht, hwf, hb, -⟩ := hends; exact hkeep t ht (hwf hstg) (hb hstgb)
  | raised r t => obtain ⟨ht, hwf, hb, -⟩ := hends; exact hkeep t ht (hwf hstg) (hb hstgb)

/-- A write at the tail inside the ring keeps the form of both memories. -/
theorem memOk_of_tail_written {b : Byte} (hs : MemOk s) (htail : s.rb.tail < s.cfg.capacity)
    (hcfg : t.cfg = s.cfg) (hbuf : t.rb.buf = writeCell s.rb.buf s.rb.tail b) (hstg : t.staging = s.staging) :
    MemOk t := by
  obtain ⟨hring, hwf, hringb, hb⟩ := hs
  rw [MemOk, hcfg, hbuf, hstg]
  exact ⟨wf_writeCell _ _ hring, hwf, below_writeCell _ htail hringb, hb⟩

/-- Only PUSH, DRAIN and ENTRY write a memory. -/
theorem Move.memOk (h : Move turn s t) (hs : MemOk s) : MemOk t := by
  cases h with
  | push b bs hpc hc htail h => subst h; exact memOk_of_tail_written hs htail rfl rfl rfl
  | pushOver b bs hpc hc htail h => subst h; exact memOk_of_tail_written hs htail rfl rfl rfl
  | drainOk m hpc hc hm h =>
    have hends := copyFrame_ends_memOk s.expectedByteCount 0 (s := irqDisable s) hs
    rw [hm] at hends
    subst h; exact hends
  | drainErr m r hpc hc hm h =>
    have hends := copyFrame_ends_memOk s.expectedByteCount 0 (s := irqDisable s) hs
    rw [hm] at hends
    subst h; exact hends
  | entryOk hpc hc h => rw [h, entry_writes_eq]; exact ⟨rfl, rfl, rfl, rfl⟩
  | exit hpc h => rw [h, endSession_eq]; exact hs
  | work u r hpc hr hw h => obtain ⟨n, v, es, -, rfl⟩ := hw.exists_eq; subst h; exact hs
  | workErr u f hpc hr hw hf h => obtain ⟨n, v, es, -, rfl⟩ := hw.exists_eq; subst h; exact hs
  | _ => rename_i h; subst h; simpa [MemOk, raiseEnd, entryClear] using hs

/-- Settles O49: every `Move` keeps the form of the memories, and taking a turn does not touch them. -/
theorem everyStepKeepsTheMemoryForm : Obligations.EveryStepKeepsTheMemoryForm :=
  fun s _ hs h => (move_of_step h).2.memOk ((memOk_afterTurn s).mpr hs)

/-! The ring. -/

/-- Only PUSH, DRAIN and ENTRY write the ring's cursors; each is one of the ring's own operations. -/
theorem Move.ringOk (h : Move turn s t) (hs : RingOk s) : RingOk t := by
  have hok := (ringOk_iff s).mp hs
  cases h with
  | push b bs hpc hroom htail h => subst h; exact hok.pushed hroom
  | pushOver b bs hpc hfull htail h =>
    subst h
    exact hok.overwritten (Nat.le_antisymm hok.1 (Nat.not_lt.mp hfull)) (Nat.zero_lt_of_lt htail)
  | drainOk m hpc hn hm h => subst h; exact hok.drained hn
  | entryOk hpc hc h => rw [h, entry_writes_eq]; exact Ring.Ok.empty
  | exit hpc h => rw [h, endSession_eq]; exact hs
  | work u r hpc hr hw h => obtain ⟨n, v, es, -, rfl⟩ := hw.exists_eq; subst h; exact hs
  | workErr u f hpc hr hw hf h => obtain ⟨n, v, es, -, rfl⟩ := hw.exists_eq; subst h; exact hs
  | _ => rename_i h; subst h; simpa [RingOk, raiseEnd, entryClear, irqDisable] using hs

/-- Settles O50: every `Move` keeps the ring's invariant. -/
theorem everyStepKeepsTheRingInvariant : Obligations.EveryStepKeepsTheRingInvariant :=
  fun s _ hs h => (move_of_step h).2.ringOk ((ringOk_afterTurn s).mpr hs)

end Sys2Proof.Machine
end

section
/-!
The session invariant (10_state.md, 44_engine.md): inside the loop it is `LoopOk` and what its control point adds, so a
step from one control point to the next is a proof of `LoopOk`.
-/

namespace Sys2Proof.Machine

/-- What holds of the session fields at every control point inside the loop. -/
structure LoopOk (s : State) : Prop where
  checked : s.cfg.cfgCheck s.inputs.caps s.inputs.timeout = none
  expectedInRange : s.expectedByteCount ≤ s.cfg.fmax
  initFrame : s.hostInitDone = false → s.expectedByteCount = 1
  commandFrame : s.hostInitDone = true → s.selectedCommand = none → s.expectedByteCount = 2
  selected : ∀ op, s.selectedCommand = some op → s.hostInitDone = true ∧ (s.cfg.lookup op).isSome = true
  running : s.endCause = none ∧ s.result = none
  armedIff : s.armed = true ↔ s.inputs.timeout ≠ 0
  neverTimedOut : s.inputs.timeout = 0 → s.timedOut = false

variable {turn : Turn} {s t : State}

/-- Whether the engine is in the loop depends on its control point alone. -/
theorem live_of_pc {p : ControlPoint} (hpc : s.pc = p) (hp : live (s.setPc p) = true) : live s = true := by
  subst hpc; exact hp

theorem SessionOk.loopOk (hs : SessionOk s) (hl : live s = true) : LoopOk s where
  checked := hs.checked hl
  expectedInRange := hs.expectedInRange hl
  initFrame := hs.initFrame hl
  commandFrame := hs.commandFrame hl
  selected op h := (hs.selected op h).2
  running := hs.running hl
  armedIff := hs.armedIff hl
  neverTimedOut := hs.neverTimedOut hl

/-- Inside the loop the invariant is `LoopOk` and what the control point adds. -/
theorem LoopOk.sessionOk (h : LoopOk s) (hl : live s = true)
    (hdrain : s.pc = .drain → s.expectedByteCount ≤ s.rb.count)
    (hlen : s.pc = .dispatch → s.stagedLen = s.expectedByteCount)
    (hframe : s.pc = .dispatch ∨ s.pc = .cmdWait → s.stagedLen ≤ s.cfg.fmax ∧ stagedWritten s.stagedLen s)
    (hwait : s.pc = .cmdWait → s.selectedCommand.isSome = true)
    (hret : s.wsResult.isSome = true → s.pc = .cmdWait) : SessionOk s where
  checked _ := h.checked
  expectedInRange _ := h.expectedInRange
  initFrame _ := h.initFrame
  commandFrame _ := h.commandFrame
  selected op hop := ⟨hl, h.selected op hop⟩
  drainReady := hdrain
  frameLength := hlen
  frameWritten := hframe
  waiting := hwait
  returned := hret
  running _ := h.running
  ending hpc := by simp [live, hpc] at hl
  ended hpc := by simp [live, hpc] at hl
  armedIff _ := h.armedIff
  neverTimedOut _ := h.neverTimedOut

/-- At GUARD, WDG and AVAIL the control point adds nothing. -/
theorem LoopOk.sessionOk_of_spinning (h : LoopOk s) (hpc : s.pc = .guard ∨ s.pc = .wdg ∨ s.pc = .avail)
    (hret : s.wsResult = none) : SessionOk s := by
  rcases hpc with hpc | hpc | hpc <;> exact h.sessionOk (by simp [live, hpc]) (by simp [hpc]) (by simp [hpc])
    (by simp [hpc]) (by simp [hpc]) (by simp [hret])

/-- Outside the loop the invariant asks for no active command, no outstanding result, and the end's records. -/
theorem sessionOk_of_not_live (hl : live s = false) (hsel : s.selectedCommand = none) (hret : s.wsResult = none)
    (hexit : s.pc = .exit → s.endCause.isSome = true)
    (hstop : s.pc = .stopped → s.endCause.isSome = true ∧ s.result = some (endResult s.endCause)) : SessionOk s := by
  have hpc (p : ControlPoint) (hp : live (s.setPc p) = true) : s.pc ≠ p := fun h =>
    Bool.false_ne_true (hl.symm.trans (live_of_pc h hp))
  constructor
  case ending => exact hexit
  case ended => exact hstop
  case drainReady => exact fun h => absurd h (hpc _ rfl)
  case frameLength => exact fun h => absurd h (hpc _ rfl)
  case frameWritten => exact fun h => absurd h (not_or.mpr ⟨hpc _ rfl, hpc _ rfl⟩)
  case waiting => exact fun h => absurd h (hpc _ rfl)
  case returned => simp [hret]
  case selected => simp [hsel]
  all_goals simp [hl]

/-- A work step's result is outstanding at CMD_WAIT only. -/
theorem SessionOk.noResult (hs : SessionOk s) (hpc : s.pc ≠ .cmdWait) : s.wsResult = none := by
  simpa using mt hs.returned hpc

theorem SessionOk.noCommand_of_not_live (hs : SessionOk s) (hl : live s = false) : s.selectedCommand = none := by
  cases hop : s.selectedCommand with
  | none => rfl
  | some op => rw [(hs.selected op hop).1] at hl; cases hl

theorem SessionOk.initDone_of_command (hs : SessionOk s) {op : Byte} (hop : s.selectedCommand = some op) :
    s.hostInitDone = true := by
  obtain ⟨-, hinit, -⟩ := hs.selected op hop
  exact hinit

/-- No command is active before the handshake (R23). -/
theorem SessionOk.noCommand_of_not_initDone (hs : SessionOk s) (hi : s.hostInitDone = false) :
    s.selectedCommand = none := by
  cases hop : s.selectedCommand with
  | none => rfl
  | some op => rw [hs.initDone_of_command hop] at hi; cases hi

/-- `raise End` with no command active (R107, R108). -/
theorem SessionOk.ends (hs : SessionOk s) (c : EndCause) (hpc : s.pc ≠ .cmdWait) (hsel : s.selectedCommand = none) :
    SessionOk (raiseEnd c s) :=
  sessionOk_of_not_live rfl hsel (hs.noResult hpc) (fun _ => rfl) (fun h => nomatch h)

theorem SessionOk.emit (hs : SessionOk s) (e : Event) : SessionOk (s.emit e) := { hs with }

/-- A fault's mark is not seen by the invariant. -/
theorem SessionOk.setFault (hs : SessionOk s) (r : Option Fault) : SessionOk (s.setFault r) := { hs with }

/-! What the invariant says of the operations that may fault. -/

theorem SessionOk.fmax_ge (hs : SessionOk s) (hl : live s = true) : genericFrame ≤ s.cfg.fmax :=
  (frames_fit_of_cfgCheck (hs.checked hl)).1

theorem SessionOk.extraFrame_fits (hs : SessionOk s) (hl : live s = true) {o : Byte} {d : Descriptor}
    (h : s.cfg.lookup o = some d) : d.extraFrameBytes ≤ s.cfg.fmax :=
  (frames_fit_of_cfgCheck (hs.checked hl)).2 o d h

/-- In a state of a run DRAIN's loop runs through and fills the frame. -/
theorem SessionOk.copyFrame_completes (hs : SessionOk s) (hr : RingOk s) (hpc : s.pc = .drain) :
    ∃ m, copyFrame s.expectedByteCount 0 (irqDisable s) = .ok ((irqDisable s).setStaging m) ∧
      ∀ k < s.expectedByteCount, (readCell m k).isSome = true := by
  have hfit : s.expectedByteCount ≤ s.cfg.fmax := hs.expectedInRange (live_of_pc hpc rfl)
  exact copyFrame_of_ringOk hr (hs.drainReady hpc) (Nat.le_trans hfit (Nat.min_le_right _ _))

theorem SessionOk.copyFrame_ne_raised (hs : SessionOk s) (hr : RingOk s) (hpc : s.pc = .drain) {r : Fault} {u : State} :
    copyFrame s.expectedByteCount 0 (irqDisable s) ≠ .raised r u := by
  obtain ⟨m, hm, -⟩ := hs.copyFrame_completes hr hpc
  rw [hm]; exact nofun

/-- In a state of a run the byte AwaitingInit tests is staged (R50). -/
theorem SessionOk.stagingRead_awaitingInit (hs : SessionOk s) (hpc : s.pc = .dispatch)
    (hp : phase s = .awaitingInit) : ∃ b, stagingRead s 0 = .ok b := by
  have hlen : s.stagedLen = 1 :=
    (hs.frameLength hpc).trans (hs.initFrame (live_of_pc hpc rfl) (initDone_of_awaitingInit hp))
  exact stagingRead_of_frameWritten (by omega) (hs.frameWritten (.inl hpc))

theorem SessionOk.stagingRead_ne_error_awaitingInit (hs : SessionOk s) (hpc : s.pc = .dispatch)
    (hp : phase s = .awaitingInit) {r : Fault} : stagingRead s 0 ≠ .error r := by
  obtain ⟨b, hb⟩ := hs.stagingRead_awaitingInit hpc hp
  rw [hb]; exact nofun

/-- In a state of a run both bytes AwaitingCommand tests are staged (R51). -/
theorem SessionOk.stagingRead_awaitingCommand (hs : SessionOk s) (hpc : s.pc = .dispatch)
    (hp : phase s = .awaitingCommand) : ∃ o k, stagingRead s 0 = .ok o ∧ stagingRead s 1 = .ok k := by
  obtain ⟨hinit, hsel⟩ := fields_of_awaitingCommand hp
  have hlen : s.stagedLen = 2 := (hs.frameLength hpc).trans (hs.commandFrame (live_of_pc hpc rfl) hinit hsel)
  have hw := hs.frameWritten (.inl hpc)
  obtain ⟨o, ho⟩ := stagingRead_of_frameWritten (i := 0) (by omega) hw
  obtain ⟨k, hk⟩ := stagingRead_of_frameWritten (i := 1) (by omega) hw
  exact ⟨o, k, ho, hk⟩

theorem SessionOk.stagingRead_ne_error_awaitingCommand (hs : SessionOk s) (hpc : s.pc = .dispatch)
    (hp : phase s = .awaitingCommand) {r : Fault} : ¬ (stagingRead s 0 = .error r ∨ stagingRead s 1 = .error r) := by
  obtain ⟨o, k, ho, hk⟩ := hs.stagingRead_awaitingCommand hpc hp
  rw [ho, hk]; exact nofun

/-- In a state of a run a work step gets its frame (R83). -/
theorem SessionOk.stagingBytes_frame (hs : SessionOk s) (hpc : s.pc = .cmdWait) :
    ∃ bs, stagingBytes s s.stagedLen 0 = .ok bs := by
  obtain ⟨hlen, hw⟩ := hs.frameWritten (.inr hpc)
  have hfit : s.cfg.fmax ≤ s.cfg.stagingSize := Nat.min_le_right _ _
  exact stagingBytes_of_written (by omega) (by simpa using hw)

/-! Every move keeps the invariant. -/

/-- At CMD_WAIT a new frame size within `FMAX` keeps the invariant, whoever else's fields change. -/
theorem SessionOk.requested (hs : SessionOk s) (hpc : s.pc = .cmdWait) {n : Nat}
    (hn : n = s.expectedByteCount ∨ n ≤ s.cfg.fmax) : SessionOk (s.setExpected n) := by
  obtain ⟨op, hop⟩ := Option.isSome_iff_exists.mp (hs.waiting hpc)
  obtain ⟨hlive, hinit, -⟩ := hs.selected op hop
  exact
    { hs with
      expectedInRange := fun _ => hn.elim (fun h => h ▸ hs.expectedInRange hlive) id
      initFrame := fun _ h => by simp [hinit] at h
      commandFrame := fun _ _ h => by simp [hop] at h
      drainReady := fun h => by simp [hpc] at h
      frameLength := fun h => by simp [hpc] at h }

theorem SessionOk.worked (hs : SessionOk s) (hpc : s.pc = .cmdWait) (hw : WorkFrame s t) : SessionOk t := by
  obtain ⟨n, v, es, hn, rfl⟩ := hw.exists_eq
  exact { hs.requested hpc hn with }

theorem loopOk_freshSession (hc : s.cfg.cfgCheck s.inputs.caps s.inputs.timeout = none) : LoopOk (freshSession s) where
  checked := hc
  expectedInRange := Nat.le_of_succ_le (frames_fit_of_cfgCheck hc).1
  initFrame _ := rfl
  commandFrame h := nomatch h
  selected _ h := nomatch h
  running := ⟨rfl, rfl⟩
  armedIff := by simp [freshSession]
  neverTimedOut _ := rfl

/-- DRAIN's writes after its loop, as one state. -/
theorem drain_writes_eq (n : Nat) (m : Mem) (s : State) :
    (irqEnable ((((irqDisable s).setStaging m).setRing { s.rb with
      head := (s.rb.head + n) % s.cfg.capacity
      count := s.rb.count - n }).setStagedLen n)).setPc .dispatch = drainedState n m s := by
  simp [drainedState, Ring.drained, irqDisable, irqEnable, State.emit, State.setIe, State.setRing, State.setStaging,
    State.setStagedLen, State.setPc]

/-- A DRAIN that filled the frame leaves the invariant at DISPATCH. -/
theorem SessionOk.drained (hs : SessionOk s) (hpc : s.pc = .drain) {m : Mem}
    (hm : ∀ k < s.expectedByteCount, (readCell m k).isSome = true) :
    SessionOk (drainedState s.expectedByteCount m s) := by
  have hl : live s = true := live_of_pc hpc rfl
  have hloop : LoopOk (drainedState s.expectedByteCount m s) := { hs.loopOk hl with }
  have hret : s.wsResult = none := hs.noResult (by simp [hpc])
  exact hloop.sessionOk rfl (fun h => nomatch h) (fun _ => rfl) (fun _ => ⟨hs.expectedInRange hl, hm⟩)
    (fun h => nomatch h) (by simp [drainedState, hret])

/-- The engine has ended the session it was at EXIT of (R110). -/
theorem SessionOk.stops (hs : SessionOk s) (hpc : s.pc = .exit) : SessionOk (endSession s.endCause s) := by
  rw [endSession_eq]
  have hl : live s = false := by simp [live, hpc]
  exact sessionOk_of_not_live rfl (hs.noCommand_of_not_live hl) (hs.noResult (by simp [hpc])) (fun h => nomatch h)
    fun _ => ⟨hs.ending hpc, rfl⟩

/-- ENTRY with a configuration error (R126). -/
theorem SessionOk.entryError (hs : SessionOk s) (hpc : s.pc = .entry) (c : EndCause) :
    SessionOk (raiseEnd c (entryClear s)) := by
  have hsel : s.selectedCommand = none := hs.noCommand_of_not_live (by simp [live, hpc])
  apply sessionOk_of_not_live <;> simp [live, raiseEnd, entryClear, hsel]

/-- A step between two spinning control points, or into one. -/
theorem SessionOk.spins (hs : SessionOk s) (hl : live s = true) (hpc : s.pc ≠ .cmdWait) {p : ControlPoint}
    (hp : p = .guard ∨ p = .wdg ∨ p = .avail) : SessionOk (s.setPc p) := by
  have hloop : LoopOk (s.setPc p) := { hs.loopOk hl with }
  exact hloop.sessionOk_of_spinning hp (hs.noResult hpc)

/-- AVAIL goes on to DRAIN once the frame is buffered (R45, R91). -/
theorem SessionOk.available (hs : SessionOk s) (hpc : s.pc = .avail) (hn : s.expectedByteCount ≤ s.rb.count) :
    SessionOk (s.setPc .drain) := by
  have hloop : LoopOk (s.setPc .drain) := { hs.loopOk (live_of_pc hpc rfl) with }
  have hret : s.wsResult = none := hs.noResult (by simp [hpc])
  exact hloop.sessionOk rfl (fun _ => hn) (fun h => nomatch h) (by simp) (fun h => nomatch h) (by simp [hret])

/-- INIT (R94) leaves AwaitingCommand's frame size (R51). -/
theorem SessionOk.initialised (hs : SessionOk s) (hpc : s.pc = .dispatch) (hinit : s.hostInitDone = false)
    (e : Event) : SessionOk ((((s.setInitDone true).setExpected genericFrame).emit e).setPc .guard) := by
  have hl : live s = true := live_of_pc hpc rfl
  have hsel := hs.noCommand_of_not_initDone hinit
  have hloop : LoopOk ((((s.setInitDone true).setExpected genericFrame).emit e).setPc .guard) :=
    { hs.loopOk hl with
      expectedInRange := hs.fmax_ge hl
      initFrame := fun h => nomatch h
      commandFrame := fun _ _ => rfl
      selected := fun op hop => by simp [hsel] at hop }
  exact hloop.sessionOk_of_spinning (.inl rfl) (hs.noResult (by simp [hpc]))

/-- NOISE (R96) asks for AwaitingInit's frame again (R50). -/
theorem SessionOk.discarded (hs : SessionOk s) (hpc : s.pc = .dispatch) (hinit : s.hostInitDone = false)
    (hf : 1 ≤ s.cfg.fmax) : SessionOk ((s.setExpected 1).setPc .guard) := by
  have hloop : LoopOk ((s.setExpected 1).setPc .guard) :=
    { hs.loopOk (live_of_pc hpc rfl) with
      expectedInRange := hf
      initFrame := fun _ => rfl
      commandFrame := fun h => by simp [hinit] at h }
  exact hloop.sessionOk_of_spinning (.inl rfl) (hs.noResult (by simp [hpc]))

/-- CMD_SELECT (R99) of a registered opcode after the handshake. -/
theorem SessionOk.commandSelected (hs : SessionOk s) (hpc : s.pc = .dispatch) (hinit : s.hostInitDone = true)
    {o : Byte} {d : Descriptor} (hd : s.cfg.lookup o = some d) (hf : d.extraFrameBytes ≤ s.cfg.fmax) :
    SessionOk (((s.setSelected (some o)).setExpected d.extraFrameBytes).setPc .guard) := by
  have hloop : LoopOk (((s.setSelected (some o)).setExpected d.extraFrameBytes).setPc .guard) :=
    { hs.loopOk (live_of_pc hpc rfl) with
      expectedInRange := hf
      initFrame := fun h => by simp [hinit] at h
      commandFrame := fun _ h => nomatch h
      selected := fun op h => by cases h; exact ⟨hinit, by simp [hd]⟩ }
  exact hloop.sessionOk_of_spinning (.inl rfl) (hs.noResult (by simp [hpc]))

/-- The call of the active command's work step (R100). -/
theorem SessionOk.called (hs : SessionOk s) (hpc : s.pc = .dispatch) {op : Byte} (hop : s.selectedCommand = some op) :
    SessionOk (((s.emit (.workStep op)).setWsResult none).setPc .cmdWait) := by
  have hloop : LoopOk (((s.emit (.workStep op)).setWsResult none).setPc .cmdWait) :=
    { hs.loopOk (live_of_pc hpc rfl) with }
  exact hloop.sessionOk rfl (fun h => nomatch h) (fun h => nomatch h) (fun _ => hs.frameWritten (.inl hpc))
    (fun _ => by simp [hop]) (fun h => nomatch h)

/-- `Done` (R101) leaves AwaitingCommand's frame size (R51). -/
theorem SessionOk.returnedDone (hs : SessionOk s) (hpc : s.pc = .cmdWait) (e : Event) :
    SessionOk ((((s.emit e).setWsResult none).setSelected none).setExpected genericFrame |>.setPc .guard) := by
  obtain ⟨op, hop⟩ := Option.isSome_iff_exists.mp (hs.waiting hpc)
  obtain ⟨hl, hinit, -⟩ := hs.selected op hop
  have hloop : LoopOk ((((s.emit e).setWsResult none).setSelected none).setExpected genericFrame |>.setPc .guard) :=
    { hs.loopOk hl with
      expectedInRange := hs.fmax_ge hl
      initFrame := fun h => by simp [hinit] at h
      commandFrame := fun _ _ => rfl
      selected := fun op h => nomatch h }
  exact hloop.sessionOk_of_spinning (.inl rfl) rfl

/-- `Continue` (R102) leaves the command active and its frame size. -/
theorem SessionOk.returnedContinue (hs : SessionOk s) (hpc : s.pc = .cmdWait) (e : Event) :
    SessionOk (((s.emit e).setWsResult none).setPc .guard) := by
  have hloop : LoopOk (((s.emit e).setWsResult none).setPc .guard) := { hs.loopOk (live_of_pc hpc rfl) with }
  exact hloop.sessionOk_of_spinning (.inl rfl) rfl

/-- An expiry in a session has a `TIMEOUT` (R78). -/
theorem SessionOk.expired (hs : SessionOk s) (htimeout : s.pc = .idle ∨ s.inputs.timeout ≠ 0) (a : Alarm) :
    SessionOk ((s.setTimedOut true).setAlarm a) :=
  { hs with
    neverTimedOut := fun hl h0 => by
      rcases htimeout with hpc | hne
      · simp [live, hpc] at hl
      · exact absurd h0 hne }

/-- START (R126). -/
theorem SessionOk.started (hs : SessionOk s) (hpc : s.pc = .idle ∨ s.pc = .stopped) (x : StartInputs) :
    SessionOk ((s.setInputs x).setPc .entry) := by
  have hl : live s = false := by rcases hpc with hpc | hpc <;> simp [live, hpc]
  have hret : s.wsResult = none := hs.noResult (by rcases hpc with hpc | hpc <;> simp [hpc])
  exact sessionOk_of_not_live rfl (hs.noCommand_of_not_live hl) hret (fun h => nomatch h) (fun h => nomatch h)

/-- Each move is one of the operations above; the faults a run cannot raise are refuted by the invariant, the others
are not seen by it. -/
theorem Move.sessionOk (h : Move turn s t) (hr : RingOk s) (hs : SessionOk s) : SessionOk t := by
  cases h with
  | same h | pend _ h | ie h | gate _ _ _ h | alarm _ _ h | tx _ _ h | tick _ h => subst h; exact { hs with }
  | pushOver _ _ _ _ _ h | pushDrop _ _ h | pushErr _ _ h => subst h; exact { hs with }
  | push b bs hpc hroom htail h =>
    subst h; exact { hs with drainReady := fun h => Nat.le_succ_of_le (hs.drainReady h) }
  | entryErr c hpc h => subst h; exact hs.entryError hpc c
  | entryOk hpc hc h =>
    rw [h, entry_writes_eq]
    exact (loopOk_freshSession hc).sessionOk_of_spinning (.inl rfl) rfl
  | guardEnd hpc hinit h => subst h; exact hs.ends _ (by simp [hpc]) (hs.noCommand_of_not_initDone hinit)
  | guard hpc h => subst h; exact hs.spins (live_of_pc hpc rfl) (by simp [hpc]) (.inr (.inl rfl))
  | wdg hpc h => subst h; exact (hs.emit _).spins (live_of_pc hpc rfl) (by simp [hpc]) (.inr (.inr rfl))
  | spin hpc h => subst h; exact hs.spins (live_of_pc hpc rfl) (by simp [hpc]) (.inl rfl)
  | avail hpc hn h => subst h; exact hs.available hpc hn
  | drainUnder hpc hn h => exact absurd (hs.drainReady hpc) (Nat.not_le.mpr hn)
  | drainOk m hpc hn hm h =>
    obtain ⟨m', hm', hw⟩ := hs.copyFrame_completes hr hpc
    obtain rfl : m = m' := by rw [hm] at hm'; exact congrArg State.staging (Ran.ok.inj hm')
    rw [h, drain_writes_eq]
    exact hs.drained hpc hw
  | drainErr m r hpc hn hm h => exact absurd hm (hs.copyFrame_ne_raised hr hpc)
  | init hpc hp hb hf h => subst h; exact hs.initialised hpc (initDone_of_awaitingInit hp) _
  | initErr hpc hp hb hf h => exact absurd (hs.fmax_ge (live_of_pc hpc rfl)) (Nat.not_le.mpr hf)
  | quit hpc hp h =>
    subst h; exact hs.ends _ (by simp [hpc]) (hs.noCommand_of_not_initDone (initDone_of_awaitingInit hp))
  | noise hpc hp hf h => subst h; exact hs.discarded hpc (initDone_of_awaitingInit hp) hf
  | noiseErr hpc hp hf h => subst h; exact hs.setFault _
  | cmdEnd c e hpc hp h => subst h; exact (hs.emit e).ends c (by simp [hpc]) (fields_of_awaitingCommand hp).2
  | cmdEndSilent c hpc hp h => subst h; exact hs.ends c (by simp [hpc]) (fields_of_awaitingCommand hp).2
  | sel o d hpc hp hd hf h => subst h; exact hs.commandSelected hpc (fields_of_awaitingCommand hp).1 hd hf
  | selErr o d hpc hp hd hf h => exact absurd (hs.extraFrame_fits (live_of_pc hpc rfl) hd) (Nat.not_le.mpr hf)
  | call op hpc hp hop h => subst h; exact hs.called hpc hop
  | readErrInit r hpc hp hb h => subst h; exact hs.setFault _
  | readErrCommand r hpc hp hb h => subst h; exact hs.setFault _
  | done hpc hw hf h => subst h; exact hs.returnedDone hpc _
  | doneErr hpc hw hf h => exact absurd (hs.fmax_ge (live_of_pc hpc rfl)) (Nat.not_le.mpr hf)
  | cont hpc hw h => subst h; exact hs.returnedContinue hpc _
  | exit hpc h => subst h; exact hs.stops hpc
  | expire ht htimeout he h => subst h; exact hs.expired htimeout _
  | work u r hpc hw hu h =>
    subst h
    have hpcu : u.pc = .cmdWait := by rw [hu.1]; exact hpc
    exact { hs.worked hpc hu with returned := fun _ => hpcu }
  | workErr u f hpc hw hu hf h => subst h; exact (hs.worked hpc hu).setFault _
  | req n hpc hf h => subst h; exact hs.requested hpc (.inr hf)
  | reqErr hpc h => subst h; exact hs.setFault _
  | start x hpc h => subst h; exact hs.started hpc x

/-- Settles O51: every `Move` keeps the invariant, and taking a turn does not touch it. -/
theorem everyStepKeepsTheSessionInvariant : Obligations.EveryStepKeepsTheSessionInvariant :=
  fun s _ hr hs h => (move_of_step h).2.sessionOk ((ringOk_afterTurn s).mpr hr) ((sessionOk_afterTurn s).mpr hs)

end Sys2Proof.Machine
end

section
/-!
Whole-machine rules (10_state.md, 44_engine.md section 6, 60_exceptions.md): each is one inversion of `Move` for the
field the rule speaks of.
-/

namespace Sys2Proof.Machine

variable {turn : Turn} {s t : State}

/-! The faults (R113). -/

/-- In a state of a run a move marks no fault but REQUEST_RANGE and CONTRACT. -/
theorem Move.fault_cases (h : Move turn s t) (hf : s.fault = none) (hr : RingOk s) (hs : SessionOk s)
    (hcap : 0 < s.cfg.capacity) : t.fault = none ∨ t.fault = some .requestRange ∨ t.fault = some .contract := by
  cases h with
  | drainUnder hpc hn h => exact absurd (hs.drainReady hpc) (Nat.not_le.mpr hn)
  | drainErr m r hpc hn hm h => exact absurd hm (hs.copyFrame_ne_raised hr hpc)
  | readErrInit r hpc hp hb h => exact absurd hb (hs.stagingRead_ne_error_awaitingInit hpc hp)
  | readErrCommand r hpc hp hb h => exact absurd hb (hs.stagingRead_ne_error_awaitingCommand hpc hp)
  | pushErr bs htail h => exact absurd (Ring.Ok.tail_lt ((ringOk_iff s).mp hr) hcap) htail
  | work u r hpc hw hu h => obtain ⟨n, v, es, -, rfl⟩ := hu.exists_eq; subst h; exact .inl hf
  | workErr u f hpc hw hu hfault h =>
    subst h
    rcases hfault with rfl | rfl | hread
    · exact .inr (.inl rfl)
    · exact .inr (.inr rfl)
    · obtain ⟨bs, hbs⟩ := hs.stagingBytes_frame hpc
      rw [hread] at hbs; cases hbs
  | initErr _ _ _ _ h | noiseErr _ _ _ h | selErr _ _ _ _ _ _ h | doneErr _ _ _ h | reqErr _ h =>
    subst h; exact .inr (.inl rfl)
  | entryOk hpc hc h => rw [h, entry_writes_eq]; exact .inl rfl
  | exit hpc h => rw [h, endSession_eq]; exact .inl hf
  | _ => rename_i h; subst h; exact .inl (by simp [raiseEnd, entryClear, irqDisable, irqEnable, hf])

/-- Settles O52: the invariants exclude the moves that mark an unreachable fault. -/
theorem rulesNeverReachTheModelFaults : Obligations.RulesNeverReachTheModelFaults := by
  intro s t r hr hs hcap h hfault
  obtain ⟨hf, hm⟩ := move_of_step h
  have hcases := hm.fault_cases (by simpa using hf) ((ringOk_afterTurn s).mpr hr) ((sessionOk_afterTurn s).mpr hs)
    (by simpa using hcap)
  rw [hfault] at hcases
  rcases hcases with h | h | h <;> cases h <;> rfl

/-! The phase (R105). -/

theorem phaseMayBecome_refl (p : Phase) : phaseMayBecome p p = true := by cases p <;> rfl

/-- Between control points of the loop the phase follows the session's fields alone (R25). -/
theorem phase_eq_of_live (hl : live s = true) (hl' : live t = true) (hinit : t.hostInitDone = s.hostInitDone)
    (hsel : t.selectedCommand = s.selectedCommand) : phase t = phase s := by
  have hloop (u : State) (hu : live u = true) : phase u =
      if u.hostInitDone = true then
        if u.selectedCommand.isSome = true then .executingCommand else .awaitingCommand
      else .awaitingInit := by
    rw [phase_eq]; cases hpc : u.pc <;> simp [live, hpc] at hu ⊢
  rw [hloop s hl, hloop t hl', hinit, hsel]

/-- The phase is a function of three fields (R25). -/
theorem phase_congr (hpc : t.pc = s.pc) (hinit : t.hostInitDone = s.hostInitDone)
    (hsel : t.selectedCommand = s.selectedCommand) : phase t = phase s := by
  simp only [phase, hpc, hinit, hsel]

/-- The phase moves along R105's transitions, or stays where the move touches none of its fields. -/
theorem Move.phase_moves (h : Move turn s t) (hs : SessionOk s) : phaseMayBecome (phase s) (phase t) = true := by
  have hstays {p : ControlPoint} (hpc : s.pc = p) (hp : live (s.setPc p) = true) (hl : live t = true)
      (hinit : t.hostInitDone = s.hostInitDone) (hsel : t.selectedCommand = s.selectedCommand) :
      phaseMayBecome (phase s) (phase t) = true := by
    rw [phase_eq_of_live (live_of_pc hpc hp) hl hinit hsel]; exact phaseMayBecome_refl _
  have hsame (hpc : t.pc = s.pc) (hinit : t.hostInitDone = s.hostInitDone)
      (hsel : t.selectedCommand = s.selectedCommand) : phaseMayBecome (phase s) (phase t) = true := by
    rw [phase_congr hpc hinit hsel]; exact phaseMayBecome_refl _
  cases h with
  | entryErr c hpc h => subst h; simp [phase_eq, hpc, raiseEnd, phaseMayBecome]
  | entryOk hpc hc h => rw [h, entry_writes_eq]; simp [phase_eq, hpc, freshSession, phaseMayBecome]
  | guardEnd hpc hinit h => subst h; simp [phase_eq, hpc, hinit, raiseEnd, phaseMayBecome]
  | guard hpc h | wdg hpc h | spin hpc h | avail hpc _ h => subst h; exact hstays hpc rfl rfl rfl rfl
  | drainOk m hpc _ _ h => rw [drain_writes_eq] at h; subst h; exact hstays hpc rfl rfl rfl rfl
  | noise hpc _ _ h => subst h; exact hstays hpc rfl rfl rfl rfl
  | call op hpc _ _ h | cont hpc _ h => subst h; exact hstays hpc rfl rfl rfl rfl
  | init hpc hp _ _ h | initErr hpc hp _ _ h =>
    subst h
    have hsel := hs.noCommand_of_not_initDone (initDone_of_awaitingInit hp)
    rw [hp]; simp [phase_eq, hpc, hsel, phaseMayBecome]
  | quit hpc hp h => subst h; rw [hp]; simp [phase_eq, raiseEnd, phaseMayBecome]
  | cmdEnd c e hpc hp h | cmdEndSilent c hpc hp h => subst h; rw [hp]; simp [phase_eq, raiseEnd, phaseMayBecome]
  | sel o d hpc hp _ _ h | selErr o d hpc hp _ _ h =>
    subst h
    rw [hp]; simp [phase_eq, hpc, (fields_of_awaitingCommand hp).1, phaseMayBecome]
  | done hpc _ _ h | doneErr hpc _ _ h =>
    subst h
    obtain ⟨op, hop⟩ := Option.isSome_iff_exists.mp (hs.waiting hpc)
    simp [phase_eq, hpc, hop, hs.initDone_of_command hop, phaseMayBecome]
  | exit hpc h => rw [h, endSession_eq]; simp [phase_eq, hpc, phaseMayBecome]
  | start x hpc h => subst h; rcases hpc with hpc | hpc <;> simp [phase_eq, hpc, phaseMayBecome]
  | work u r _ _ hu h | workErr u f _ _ hu _ h =>
    obtain ⟨n, v, es, -, rfl⟩ := hu.exists_eq; subst h; exact hsame rfl rfl rfl
  | _ => rename_i h; subst h; apply hsame <;> simp [irqDisable]

/-- Settles O53: taking a turn does not touch the phase, and every `Move` follows R105. -/
theorem phaseMovesAsAllowed : Obligations.PhaseMovesAsAllowed := fun s t hs h => by
  simpa using (move_of_step h).2.phase_moves ((sessionOk_afterTurn s).mpr hs)

/-! The session's Booleans (R21, R22). -/

/-- A Boolean that is kept, cleared where `Q` holds or set where `P` holds. -/
theorem flag_changes {b b' : Bool} {P Q : Prop} (h : b' = b ∨ (Q ∧ b' = false) ∨ (P ∧ b' = true)) :
    (b = false → b' = true → P) ∧ (b = true → b' = false → Q) := by
  rcases h with rfl | ⟨hq, rfl⟩ | ⟨hp, rfl⟩
  · exact ⟨fun h0 h1 => by simp [h0] at h1, fun h1 h0 => by simp [h1] at h0⟩
  · exact ⟨nofun, fun _ _ => hq⟩
  · exact ⟨fun _ _ => hp, nofun⟩

/-- The handshake completes at a dispatched INIT byte and is undone by ENTRY alone. -/
theorem Move.hostInitDone_cases (h : Move turn s t) :
    t.hostInitDone = s.hostInitDone ∨ (s.pc = .entry ∧ t.hostInitDone = false) ∨
      ((s.pc = .dispatch ∧ phase s = .awaitingInit ∧ stagingRead s 0 = .ok s.cfg.initByte) ∧
        t.hostInitDone = true) := by
  cases h with
  | entryOk hpc hc h => rw [h, entry_writes_eq]; exact .inr (.inl ⟨hpc, rfl⟩)
  | init hpc hp hb _ h | initErr hpc hp hb _ h => subst h; exact .inr (.inr ⟨⟨hpc, hp, hb⟩, rfl⟩)
  | exit hpc h => rw [h, endSession_eq]; exact .inl rfl
  | work u r _ _ hu h | workErr u f _ _ hu _ h => obtain ⟨n, v, es, -, rfl⟩ := hu.exists_eq; subst h; exact .inl rfl
  | _ => rename_i h; subst h; exact .inl (by simp [raiseEnd, entryClear, irqDisable, irqEnable])

/-- Settles O54: of the three cases of `Move.hostInitDone_cases` one sets the flag and one clears it. -/
theorem handshakeChangesOnlyByInitAndEntry : Obligations.HandshakeChangesOnlyByInitAndEntry := by
  intro s t h
  have hcases := (move_of_step h).2.hostInitDone_cases
  simp only [afterTurn_hostInitDone, afterTurn_pc, phase_afterTurn, stagingRead_afterTurn, afterTurn_cfg] at hcases
  exact flag_changes hcases

/-- The expiry is recorded in an enabled expiry turn and forgotten by ENTRY alone. -/
theorem Move.timedOut_cases (h : Move turn s t) :
    t.timedOut = s.timedOut ∨ (s.pc = .entry ∧ t.timedOut = false) ∨
      ((turn = .expire ∧ expireEnabled s = true ∧ (s.pc = .idle ∨ s.inputs.timeout ≠ 0)) ∧ t.timedOut = true) := by
  cases h with
  | entryOk hpc hc h => rw [h, entry_writes_eq]; exact .inr (.inl ⟨hpc, rfl⟩)
  | expire ht htimeout he h => subst h; exact .inr (.inr ⟨⟨ht, he, htimeout⟩, rfl⟩)
  | exit hpc h => rw [h, endSession_eq]; exact .inl rfl
  | work u r _ _ hu h | workErr u f _ _ hu _ h => obtain ⟨n, v, es, -, rfl⟩ := hu.exists_eq; subst h; exact .inl rfl
  | _ => rename_i h; subst h; exact .inl (by simp [raiseEnd, entryClear, irqDisable, irqEnable])

/-- Settles O55: of the three cases of `Move.timedOut_cases` one sets the flag and one clears it. -/
theorem timedOutChangesOnlyByExpiryAndEntry : Obligations.TimedOutChangesOnlyByExpiryAndEntry := by
  intro s t h
  have hcases := (move_of_step h).2.timedOut_cases
  simp only [afterTurn_timedOut, afterTurn_pc, expireEnabled_afterTurn, afterTurn_inputs] at hcases
  exact flag_changes hcases

/-! The end of a session (R108). -/

/-- `raise End` happens at ENTRY, before the handshake, or with no command active. -/
theorem Move.reaches_exit (h : Move turn s t) (hexit : t.pc = .exit) :
    s.pc = .exit ∨ s.pc = .entry ∨ s.hostInitDone = false ∨ s.selectedCommand = none := by
  cases h with
  | entryErr c hpc h => exact .inr (.inl hpc)
  | entryOk hpc hc h => exact .inr (.inl hpc)
  | guardEnd hpc hinit h => exact .inr (.inr (.inl hinit))
  | quit hpc hp h => exact .inr (.inr (.inl (initDone_of_awaitingInit hp)))
  | cmdEnd c e hpc hp h | cmdEndSilent c hpc hp h => exact .inr (.inr (.inr (fields_of_awaitingCommand hp).2))
  | exit hpc h => exact .inl hpc
  | work u r _ _ hu h | workErr u f _ _ hu _ h =>
    obtain ⟨n, v, es, -, rfl⟩ := hu.exists_eq; subst h; exact .inl hexit
  | guard _ h | wdg _ h | spin _ h | avail _ _ h | drainOk _ _ _ _ h | init _ _ _ _ h | noise _ _ _ h
  | sel _ _ _ _ _ _ h | call _ _ _ _ h | done _ _ _ h | cont _ _ h | start _ _ h =>
    subst h; simp at hexit
  | _ => rename_i h; subst h; exact .inl (by simpa [irqDisable] using hexit)

/-- Settles O56: at ENTRY and before the handshake no command is active. -/
theorem noEndWhileACommandIsActive : Obligations.NoEndWhileACommandIsActive := by
  intro s t hs h hexit hne
  have hcases := (move_of_step h).2.reaches_exit hexit
  simp only [afterTurn_pc, afterTurn_hostInitDone, afterTurn_selectedCommand] at hcases
  rcases hcases with hpc | hpc | hinit | hsel
  · exact absurd hpc hne
  · exact hs.noCommand_of_not_live (by simp [live, hpc])
  · exact hs.noCommand_of_not_initDone hinit
  · exact hsel

/-! The configuration (R16). -/

/-- The parameters are fixed, and the start inputs are START's. -/
theorem Move.config_cases (h : Move turn s t) :
    t.cfg = s.cfg ∧ (t.inputs = s.inputs ∨ ((s.pc = .idle ∨ s.pc = .stopped) ∧ t.pc = .entry)) := by
  cases h with
  | entryOk hpc hc h => rw [h, entry_writes_eq]; exact ⟨rfl, .inl rfl⟩
  | start x hpc h => subst h; exact ⟨rfl, .inr ⟨hpc, rfl⟩⟩
  | exit hpc h => rw [h, endSession_eq]; exact ⟨rfl, .inl rfl⟩
  | work u r _ _ hu h | workErr u f _ _ hu _ h =>
    obtain ⟨n, v, es, -, rfl⟩ := hu.exists_eq; subst h; exact ⟨rfl, .inl rfl⟩
  | _ => rename_i h; subst h; simp [raiseEnd, entryClear, irqDisable, irqEnable]

/-- Settles O57: no move writes the parameters, and only START writes the inputs. -/
theorem configurationIsFixedForASession : Obligations.ConfigurationIsFixedForASession := by
  intro s t h
  obtain ⟨hcfg, hinputs⟩ := (move_of_step h).2.config_cases
  simp only [afterTurn_cfg, afterTurn_inputs, afterTurn_pc] at hcfg hinputs
  exact ⟨hcfg, hinputs.resolve_left⟩

/-! The history (R31). -/

/-- Away from ENTRY a move only adds events after those before it. -/
theorem Move.hist_extends (h : Move turn s t) (hpc : s.pc ≠ .entry) : ∃ es, t.hist = s.hist ++ es := by
  cases h with
  | entryErr c h _ | entryOk h _ _ => exact absurd h hpc
  | exit _ h => rw [h, endSession_eq]; simp only [List.append_assoc]; exact ⟨_, rfl⟩
  | work u r _ _ hu h | workErr u f _ _ hu _ h =>
    obtain ⟨n, v, es, -, rfl⟩ := hu.exists_eq; subst h; exact ⟨es, rfl⟩
  | _ => rename_i h; subst h; simp [raiseEnd, irqDisable, irqEnable]

/-- Settles O59: every move but ENTRY's emits or leaves the history. -/
theorem historyOnlyGrows : Obligations.HistoryOnlyGrows := by
  intro s t h hpc
  simpa using (move_of_step h).2.hist_extends (by simpa using hpc)

/-! The interrupt gate (R115). -/

/-- What a move does to the gate. -/
theorem Move.ie_cases (h : Move turn s t) :
    t.ie = s.ie ∨ t.ie = true ∨ (s.pc = .exit ∧ t.pc = .stopped) ∨ (s.pc = .drain ∧ t.fault.isSome = true) ∨
      (∃ b, turn = .platformSetsGate b ∧ t.ie = b ∧ (s.pc = .idle ∨ s.pc = .stopped)) := by
  cases h with
  | ie h => subst h; exact .inr (.inl rfl)
  | gate b ht hpc h => subst h; exact .inr (.inr (.inr (.inr ⟨b, ht, rfl, hpc⟩)))
  | drainOk m _ _ _ h => rw [h, drain_writes_eq]; exact .inr (.inl rfl)
  | drainUnder hpc _ h | drainErr m r hpc _ _ h => subst h; exact .inr (.inr (.inr (.inl ⟨hpc, rfl⟩)))
  | entryOk hpc hc h => rw [h, entry_writes_eq]; exact .inl rfl
  | exit hpc h => rw [h, endSession_eq]; exact .inr (.inr (.inl ⟨hpc, rfl⟩))
  | work u r _ _ hu h | workErr u f _ _ hu _ h => obtain ⟨n, v, es, -, rfl⟩ := hu.exists_eq; subst h; exact .inl rfl
  | _ => rename_i h; subst h; exact .inl (by simp [raiseEnd, entryClear])

/-- Settles O60: of the cases of `Move.ie_cases` those that can close the gate are the three named. -/
theorem gateClosesOnlyAtExitInAFaultingDrainOrByThePlatform :
    Obligations.GateClosesOnlyAtExitInAFaultingDrainOrByThePlatform := by
  intro s t h hopen hclosed
  have hcases := (move_of_step h).2.ie_cases
  simp only [afterTurn_ie, afterTurn_pc] at hcases
  rcases hcases with hsame | hset | hexit | hdrain | ⟨b, ht, hb, hpc⟩
  · simp [hsame, hopen] at hclosed
  · simp [hset] at hclosed
  · exact .inl hexit
  · exact .inr (.inl hdrain)
  · obtain rfl : b = false := hb.symm.trans hclosed
    exact .inr (.inr ⟨ht, hpc⟩)

end Sys2Proof.Machine
end

section
/-!
The turn a step belongs to and what it fetches (10_state.md section 4, 00_scope.md section 4).
-/

namespace Sys2Proof.Machine

variable {s : State} {turn : Turn} {i : Instr}

theorem step_of_fetch (hf : s.fault = none) (ht : nextTurn s = turn) (h : fetch turn (afterTurn s) = some i) :
    step s = exec i (afterTurn s) := by
  subst ht; simp [step, hf, h]

theorem step_of_no_fetch (hf : s.fault = none) (ht : nextTurn s = turn) (h : fetch turn (afterTurn s) = none) :
    step s = .next (input turn (afterTurn s)) := by
  subst ht; simp [step, hf, h]

theorem afterTurn_cons {t : Turn} {ts : List Turn} (h : s.turns = t :: ts) : afterTurn s = { s with turns := ts } := by
  simp [afterTurn, h, State.setTurns]

theorem afterTurn_nil (h : s.turns = []) : afterTurn s = { s with turnNo := s.turnNo + 1 } := by
  simp [afterTurn, h, State.setTurns]

/-- Settles O1: the two cases of a step without a fault mark, and the two of `afterTurn`. -/
theorem stepRunsTheFetchedOperation : Obligations.StepRunsTheFetchedOperation := by
  intro s hf
  exact ⟨fun i h => step_of_fetch hf rfl h, fun h => step_of_no_fetch hf rfl h,
    fun t ts h => ⟨by simp [nextTurn, h], afterTurn_cons h⟩, afterTurn_nil⟩

/-- Settles O5: `settle` writes the mark, and a marked state answers it. -/
theorem faultedStateTakesNoStep : Obligations.FaultedStateTakesNoStep :=
  ⟨fun _ _ => rfl, fun s r h => by simp [step, h]⟩

/-! Engine turns. -/

/-- An engine turn runs the operation of the control point, and passes where there is none. -/
theorem step_engine (hf : s.fault = none) (ht : nextTurn s = .engine) :
    step s = (engineOp (afterTurn s)).elim (.next (afterTurn s)) (fun i => exec i (afterTurn s)) := by
  cases h : engineOp (afterTurn s) with
  | none => exact step_of_no_fetch hf ht h
  | some i => exact step_of_fetch hf ht h

theorem engineOp_at_dispatch (hpc : s.pc = .dispatch) : engineOp s = some ((stagedToken s).getD .dispatch) := by
  simp only [engineOp, hpc]
  cases stagedToken s <;> rfl

/-- The staged token is what the decoder reads in the phase's format (R56). -/
theorem stagedToken_of_decode {f : Format} {bs rest : List Byte} (hf : stagedFormat s = some f)
    (hbs : stagingBytes s f.size 0 = .ok bs) (hd : decode s.cfg f bs = .ok (i, rest)) : stagedToken s = some i := by
  simp [stagedToken, hf, hbs, hd]

/-- Settles O2: at DISPATCH the phase is one of the three with a format, and the token decoded in it is fetched. -/
theorem stepRunsTheStagedToken : Obligations.StepRunsTheStagedToken := by
  intro s f bs rest i hfault ht hpc hf hbs hd
  have hformat : stagedFormat s = some f := by
    rw [hf, stagedFormat]
    cases hinit : s.hostInitDone with
    | false => simp [phase, hpc, hinit]
    | true => cases hsel : s.selectedCommand <;> simp [phase, hpc, hinit, hsel]
  have htoken := stagedToken_of_decode hformat hbs hd
  rw [step_engine hfault ht, engineOp_at_dispatch (by simpa using hpc), stagedToken_afterTurn, htoken]
  rfl

/-- Settles O3: the engine's operation, control point by control point. -/
theorem engineFollowsItsControlPoint : Obligations.EngineFollowsItsControlPoint := by
  intro s hf ht
  rw [step_engine hf ht]
  cases hpc : s.pc with
  | dispatch => rw [engineOp_at_dispatch (by simpa using hpc), stagedToken_afterTurn]; rfl
  | cmdWait =>
    cases hr : s.wsResult with
    | none => simp [engineOp, hpc, hr]
    | some r => cases r <;> simp [engineOp, hpc, hr]
  | _ => simp [engineOp, hpc]

/-! The other agents' turns. -/

theorem startable_afterTurn_iff : startable (afterTurn s) = true ↔ s.pc = .idle ∨ s.pc = .stopped := by
  simp [startable]

/-- Settles O4: turn by turn, what `fetch` answers, or what `input` does where it answers nothing. -/
theorem otherAgentsTakeTheirTurns : Obligations.OtherAgentsTakeTheirTurns := by
  intro s hf
  refine ⟨fun ht b bs hb => ?_, fun ht hb => ?_, fun d ht => ?_, fun ht hc => ?_, fun ht hpc h0 => ?_,
    fun es r op ht hop => ?_, fun es r ht hop => ?_, fun b ht hpc hr => ?_, fun n ht hpc hr => ?_,
    fun b n ht hoff => ?_, fun c t x ht => ?_, fun bs ht => ?_, fun ht => ?_, fun b ht => ?_, fun d e ht => ?_⟩
  · exact step_of_fetch hf ht (by simp [fetch, hb])
  · exact step_of_no_fetch hf ht (by simp [fetch, hb])
  · exact step_of_fetch hf ht rfl
  · exact step_of_fetch hf ht (by simp [fetch, callbackInstalled, hc])
  · exact step_of_no_fetch hf ht (by simp [fetch, callbackInstalled, hpc, h0])
  · exact step_of_fetch hf ht (by simp [fetch, hop])
  · exact step_of_no_fetch hf ht (by simp [fetch, hop])
  · exact step_of_fetch hf ht (by simp [fetch, hpc, hr])
  · exact step_of_fetch hf ht (by simp [fetch, hpc, hr])
  · have hidle : ¬ ((afterTurn s).pc = .cmdWait ∧ (afterTurn s).wsResult = none) :=
      Decidable.not_and_iff_not_or_not.mpr (by simpa using hoff)
    rcases ht with ht | ht
    · exact step_of_no_fetch hf ht (if_neg hidle)
    · exact step_of_no_fetch hf ht (if_neg hidle)
  · exact step_of_fetch hf ht rfl
  · rw [step_of_no_fetch hf ht rfl, input, afterTurn_uartPending]; rfl
  · exact step_of_no_fetch hf ht rfl
  · rw [step_of_no_fetch hf ht rfl, input]
    simp only [startable_afterTurn_iff]; rfl
  · rw [step_of_no_fetch hf ht rfl, input]
    simp only [startable_afterTurn_iff]; rfl

end Sys2Proof.Machine
end

section
/-!
Proofs about the timer's expiry (42_timer.md) and about LOOKUP, REQUEST and the work step (43_registry.md).
-/

namespace Sys2Proof.Machine

variable {s t : State}

/-! The alarm. -/

theorem expireEnabled_iff :
    expireEnabled s = true ↔
      s.alarm.enabled = true ∧ (∃ dl, s.alarm.deadline = some dl ∧ dl ≤ s.now) ∧ s.ie = true ∧ s.pc ≠ .stopped := by
  cases hd : s.alarm.deadline <;> simp [expireEnabled, hd, and_assoc]

theorem exec_alarmExpire_of_enabled (h : expireEnabled s = true) :
    exec .alarmExpire s = .next ((s.setTimedOut true).setAlarm { s.alarm with enabled := false }) := by
  simp [exec, execAlarmExpire, h]

/-- Settles O20: the five conditions are those of `expireEnabled_iff`, each of which the second clause denies. -/
theorem alarmExpiresOnceTheDeadlineIsReached : Obligations.AlarmExpiresOnceTheDeadlineIsReached := by
  refine ⟨fun s dl hen hdl hreach hie hpc => ?_, fun s hoff => ?_⟩
  · rw [exec_alarmExpire_of_enabled (expireEnabled_iff.mpr ⟨hen, ⟨dl, hdl, hreach⟩, hie, hpc⟩), ← hdl]
    rfl
  · refine exec_alarmExpire_of_disabled (Bool.eq_false_iff.mpr fun hon => ?_)
    obtain ⟨hen, ⟨dl, hdl, hreach⟩, hie, hpc⟩ := expireEnabled_iff.mp hon
    rcases hoff with h | h | ⟨dl', hdl', hearly⟩ | h | h
    · simp [hen] at h
    · simp [hdl] at h
    · obtain rfl : dl = dl' := Option.some.inj (hdl.symm.trans hdl')
      omega
    · simp [hie] at h
    · exact hpc h

/-- Settles O21: ALARM_DISARM is the disarming EXIT shares. -/
theorem alarmDisarmDisablesTheAlarm : Obligations.AlarmDisarmDisablesTheAlarm := fun _ => rfl

/-! The registry and the requested size. -/

/-- Settles O22: LOOKUP is `Params.lookup`, which finds the first descriptor of the opcode. -/
theorem lookupAnswersTheDescriptor : Obligations.LookupAnswersTheDescriptor := by
  intro o s
  refine ⟨rfl, fun d hd => ⟨List.mem_of_find?_eq_some hd, by simpa using List.find?_some hd⟩, fun hnone d hd => ?_⟩
  simpa using List.find?_eq_none.mp hnone d hd

theorem exec_request (n : Nat) (s : State) : exec (.request n) s = (request n s).settle := rfl

/-- Settles O23: `FMAX` parts the two cases of `request`. -/
theorem requestSetsTheFrameSize : Obligations.RequestSetsTheFrameSize := by
  intro n s
  refine ⟨fun hn => ?_, fun hn => ?_⟩
  · rw [exec_request, request_inRange hn]; rfl
  · rw [exec_request, request_outOfRange hn]; rfl

/-! The work step. -/

/-- The state after effects that keep the contract (R82, R84). -/
def effectsState (es : List Effect) (s : State) : State :=
  { s with
    hist := s.hist ++ eventsOf es
    expectedByteCount := requestedSize s.expectedByteCount es
    cmdPriv := privAfter s.cmdPriv es }

variable {ctx : WorkContext} {es : List Effect}

theorem effectsState_emit (es : List Effect) (e : Event) (s : State) :
    effectsState es (s.emit e) = { effectsState es s with hist := s.hist ++ e :: eventsOf es } := by
  simp [effectsState, State.emit]

/-- One effect within the contract does not fault, and the effects after it start where it ended. -/
theorem applyEffect_of_withinContract {e : Effect} (hctx : ctx.logSink = s.inputs.caps.log)
    (h : withinContract s.cfg s.inputs.caps.log e = true) :
    ∃ u, applyEffect ctx e s = .ok u ∧ u.cfg = s.cfg ∧ u.inputs = s.inputs ∧
      ∀ es, effectsState es u = effectsState (e :: es) s := by
  cases e with
  | sendByte b => exact ⟨_, rfl, rfl, rfl, fun es => effectsState_emit es _ s⟩
  | feedWatchdog => exact ⟨_, rfl, rfl, rfl, fun es => effectsState_emit es _ s⟩
  | flash c => exact ⟨_, rfl, rfl, rfl, fun es => rfl⟩
  | log m =>
    have hsink : ctx.logSink = true := hctx.trans h
    exact ⟨s.emit (.log m), by simp [applyEffect, hsink], rfl, rfl, fun es => effectsState_emit es _ s⟩
  | request n =>
    have hn : n ≤ s.cfg.fmax := by simpa [withinContract] using h
    exact ⟨_, request_inRange hn, rfl, rfl, fun es => rfl⟩
  | setPriv v => exact ⟨_, rfl, rfl, rfl, fun es => rfl⟩
  | breach f => cases h

theorem applyEffects_of_keepsContract (hctx : ctx.logSink = s.inputs.caps.log) (h : keepsContract s es = true) :
    applyEffects ctx es s = .ok (effectsState es s) := by
  induction es generalizing s with
  | nil => simp [applyEffects, effectsState, eventsOf, requestedSize, privAfter]
  | cons e es ih =>
    obtain ⟨he, hes⟩ : withinContract s.cfg s.inputs.caps.log e = true ∧ keepsContract s es = true := by
      simpa [keepsContract] using h
    obtain ⟨u, hu, hcfg, hinputs, hrest⟩ := applyEffect_of_withinContract hctx he
    have hes' : keepsContract u es = true := by rwa [keepsContract, hcfg, hinputs]
    rw [applyEffects, hu, Ran.andThen_ok, ih (by rw [hctx, hinputs]) hes', hrest]

theorem applyEffects_append (ctx : WorkContext) (es es' : List Effect) (s : State) :
    applyEffects ctx (es ++ es') s = (applyEffects ctx es s).andThen (applyEffects ctx es') := by
  induction es generalizing s with
  | nil => rfl
  | cons e es ih =>
    simp only [List.cons_append, applyEffects]
    cases applyEffect ctx e s with
    | ok u => exact ih u
    | raised r u => rfl

/-- A faulting effect after others that keep the contract stops the work step. -/
theorem applyEffects_raised_after {e : Effect} {es' : List Effect} {r : Fault}
    (hctx : ctx.logSink = s.inputs.caps.log) (hes : keepsContract s es = true)
    (he : applyEffect ctx e (effectsState es s) = .raised r (effectsState es s)) :
    applyEffects ctx (es ++ e :: es') s = .raised r (effectsState es s) := by
  rw [applyEffects_append, applyEffects_of_keepsContract hctx hes, Ran.andThen_ok, applyEffects, he,
    Ran.andThen_raised]

/-- A called work step gets its context (R83) and runs its effects. -/
theorem exec_workStep_called {op : Byte} (hpc : s.pc = .cmdWait) (hop : s.selectedCommand = some op)
    (hr : s.wsResult = none) (hreg : (s.cfg.lookup op).isSome = true) (hlen : s.stagedLen ≤ s.cfg.stagingSize)
    (hw : stagedWritten s.stagedLen s) :
    ∃ ctx : WorkContext, ctx.logSink = s.inputs.caps.log ∧ ∀ es r,
      exec (.workStep op es r) s =
        ((applyEffects ctx es s).andThen fun u => .ok (u.setWsResult (some r))).settle := by
  have hfit : 0 + s.stagedLen ≤ s.cfg.stagingSize := by omega
  obtain ⟨frame, hframe⟩ := stagingBytes_of_written hfit (by simpa using hw)
  have hworking : (working op s && (s.cfg.lookup op).isSome) = true := by simp [working, hpc, hop, hr, hreg]
  refine ⟨⟨op, frame, s.stagedLen, s.inputs.chipId, s.inputs.caps.log⟩, rfl, fun es r => ?_⟩
  simp only [exec, execWorkStep, hworking, if_true, workContext, hframe]

/-- Settles O24: within the contract every effect runs through, by induction on the effects. -/
theorem workStepMakesItsEffects : Obligations.WorkStepMakesItsEffects := by
  intro op es r s hpc hop hr hreg hlen hw hes
  obtain ⟨ctx, hctx, hexec⟩ := exec_workStep_called hpc hop hr hreg hlen hw
  rw [hexec, applyEffects_of_keepsContract hctx hes]
  rfl

/-- Settles O25: the breach or the request is the first effect that raises a fault. -/
theorem workStepBreachIsAFault : Obligations.WorkStepBreachIsAFault := by
  intro op es es' e r s hpc hop hr hreg hlen hw hes
  obtain ⟨ctx, hctx, hexec⟩ := exec_workStep_called hpc hop hr hreg hlen hw
  refine ⟨fun ⟨f, hf⟩ => ?_, fun ⟨n, hn, hout⟩ => ?_⟩
  · subst hf
    rw [hexec, applyEffects_raised_after hctx hes rfl]
    exact ⟨_, rfl, rfl, hr⟩
  · subst hn
    have hfault : applyEffect ctx (.request n) (effectsState es s) = .raised .requestRange (effectsState es s) :=
      request_outOfRange hout
    rw [hexec, applyEffects_raised_after hctx hes hfault]
    exact ⟨_, rfl, rfl, hr⟩

/-- Settles O26: in each case of `exec_workStep_cases` the effects keep to `WorkFrame`. -/
theorem workStepTouchesNothingElse : Obligations.WorkStepTouchesNothingElse := by
  intro op es r s t h
  rcases exec_workStep_cases h with rfl | ⟨-, u, hu, rfl⟩ | ⟨-, u, f, hu, rfl, -⟩
  · exact ⟨rfl, ⟨[], by simp⟩, fun _ => rfl, fun _ => rfl⟩
  · obtain ⟨n, v, es', -, rfl⟩ := hu.exists_eq
    exact ⟨rfl, ⟨es', rfl⟩, fun _ => rfl, fun _ => rfl⟩
  · obtain ⟨n, v, es', -, rfl⟩ := hu.exists_eq
    exact ⟨rfl, ⟨es', rfl⟩, fun _ => rfl, fun _ => rfl⟩

/-- Settles O27: each of the three conditions denies that the engine waits for this work step. -/
theorem workStepRunsOnlyWhenCalled : Obligations.WorkStepRunsOnlyWhenCalled := by
  intro op es r s hoff
  have hidle : working op s = false := by rcases hoff with h | h | h <;> simp [working, Option.isSome_iff_ne_none, h]
  simp [exec, execWorkStep, hidle]

end Sys2Proof.Machine
end

section
/-!
Proofs about the engine's steps and the tokens (44_engine.md), and about the bytes the block sends.
-/

namespace Sys2Proof.Machine

variable {s : State}

/-! The condition of a token row (R56), as the session's fields. -/

theorem dispatchIn_awaitingInit_iff :
    dispatchIn .awaitingInit s = true ↔ s.pc = .dispatch ∧ s.hostInitDone = false := by
  by_cases hpc : s.pc = .dispatch
  · cases hi : s.hostInitDone <;> cases hc : s.selectedCommand <;> simp [dispatchIn, phase, hpc, hi, hc]
  · simp [dispatchIn, hpc]

theorem dispatchIn_awaitingCommand_iff :
    dispatchIn .awaitingCommand s = true ↔
      s.pc = .dispatch ∧ s.hostInitDone = true ∧ s.selectedCommand = none := by
  by_cases hpc : s.pc = .dispatch
  · cases hi : s.hostInitDone <;> cases hc : s.selectedCommand <;> simp [dispatchIn, phase, hpc, hi, hc]
  · simp [dispatchIn, hpc]

theorem dispatchIn_executingCommand_iff :
    dispatchIn .executingCommand s = true ↔
      s.pc = .dispatch ∧ s.hostInitDone = true ∧ s.selectedCommand.isSome = true := by
  by_cases hpc : s.pc = .dispatch
  · cases hi : s.hostInitDone <;> cases hc : s.selectedCommand <;> simp [dispatchIn, phase, hpc, hi, hc]
  · simp [dispatchIn, hpc]

/-! AwaitingInit. -/

/-- Settles O29: WDG at its control point. -/
theorem wdgFeedsOnce : Obligations.WdgFeedsOnce := by
  intro s hpc
  simp only [exec, execWdg, if_pos hpc]; rfl

/-- Settles O33: INIT's request of a selection frame is in range. -/
theorem initCompletesTheHandshake : Obligations.InitCompletesTheHandshake := by
  intro s hpc hi hf
  have hreq := request_inRange (s := s.setInitDone true) hf
  simp only [exec, execInit, if_pos (dispatchIn_awaitingInit_iff.mpr ⟨hpc, hi⟩), initHandler, hreq]
  rfl

/-- Settles O34: QUIT is `raise End`. -/
theorem quitEndsTheSession : Obligations.QuitEndsTheSession := by
  intro s hpc hi hne
  simp only [exec, execQuit, dispatchIn_awaitingInit_iff.mpr ⟨hpc, hi⟩, bne_iff_ne.mpr hne, Bool.and_self, if_true]
  rfl

/-- Settles O35: NOISE's request of one byte is in range. -/
theorem noiseIsDiscarded : Obligations.NoiseIsDiscarded := by
  intro b s hpc hi hib hqb hf
  simp only [exec, execNoise, dispatchIn_awaitingInit_iff.mpr ⟨hpc, hi⟩, bne_iff_ne.mpr hib, bne_iff_ne.mpr hqb,
    Bool.and_self, if_true, noiseHandler, request_inRange hf]
  rfl

/-! AwaitingCommand. -/

/-- Settles O36: the log record is the only difference logging makes. -/
theorem badChecksumEndsTheSession : Obligations.BadChecksumEndsTheSession := by
  intro o k s hpc hi hc hk
  have hbad : validate [o, k] = false := Bool.eq_false_iff.mpr (mt validate_pair_iff.mp hk)
  simp only [exec, execCmdBadsum, dispatchIn_awaitingCommand_iff.mpr ⟨hpc, hi, hc⟩, hbad, Bool.not_false,
    Bool.and_self, if_true, badsumHandler]
  cases s.cfg.logEnabled <;> rfl

/-- Settles O37: one NACK, then `raise End`. -/
theorem unsupportedOpcodeIsNacked : Obligations.UnsupportedOpcodeIsNacked := by
  intro o s hpc hi hc hl
  simp only [exec, execCmdUnsupported, dispatchIn_awaitingCommand_iff.mpr ⟨hpc, hi, hc⟩, hl, Option.isNone_none,
    Bool.and_self, if_true]
  rfl

/-- Settles O38: the descriptor's frame is in range. -/
theorem selectionRequestsTheSubframe : Obligations.SelectionRequestsTheSubframe := by
  intro o d s hpc hi hc hl hf
  have hreq := request_inRange (s := s.setSelected (some o)) hf
  simp only [exec, execCmdSelect, dispatchIn_awaitingCommand_iff.mpr ⟨hpc, hi, hc⟩, if_true, hl, selectHandler, hreq]
  rfl

/-! ExecutingCommand. -/

theorem exec_wsCall_called {op : Byte} (hpc : s.pc = .dispatch) (hi : s.hostInitDone = true)
    (hop : s.selectedCommand = some op) : exec (.wsCall op) s = (callWorkStep op s).settle := by
  simp [exec, execWsCall, dispatchIn_executingCommand_iff.mpr ⟨hpc, hi, hop ▸ rfl⟩, hop]

theorem exec_subframe_called {op : Byte} (bs : List Byte) (hpc : s.pc = .dispatch) (hi : s.hostInitDone = true)
    (hop : s.selectedCommand = some op) : exec (.subframe bs) s = (callWorkStep op s).settle := by
  simp [exec, execSubframe, dispatchIn_executingCommand_iff.mpr ⟨hpc, hi, hop ▸ rfl⟩, hop]

/-- Settles O39: both rows are the one call. -/
theorem subframeCallsTheWorkStep : Obligations.SubframeCallsTheWorkStep :=
  fun _ bs _ hpc hi hop => ⟨exec_subframe_called bs hpc hi hop, exec_wsCall_called hpc hi hop⟩

/-- Settles O40: `Done`'s request of a selection frame is in range; `Continue` makes none. -/
theorem workStepResultReturnsToTheLoop : Obligations.WorkStepResultReturnsToTheLoop := by
  intro s hpc
  refine ⟨fun hr hf => ?_, fun hr => ?_⟩
  · have hreq := request_inRange (s := ((s.emit (.wsRet .done)).setWsResult none).setSelected none) hf
    simp only [exec, execWsDone, if_pos (And.intro hpc hr), hreq]
    rfl
  · simp only [exec, execWsContinue, if_pos (And.intro hpc hr)]
    rfl

/-! Outside their phase the tokens take no step (R56, R104). -/

theorem exec_awaitingInit_idle (b : Byte) (h : dispatchIn .awaitingInit s = false) :
    exec .init s = .next s ∧ exec .quit s = .next s ∧ exec (.noise b) s = .next s := by
  simp [exec, execInit, execQuit, execNoise, h]

theorem exec_awaitingCommand_idle (o k : Byte) (h : dispatchIn .awaitingCommand s = false) :
    exec (.cmdBadsum o k) s = .next s ∧ exec (.cmdUnsupported o) s = .next s ∧ exec (.cmdSelect o) s = .next s := by
  simp [exec, execCmdBadsum, execCmdUnsupported, execCmdSelect, h]

theorem exec_executingCommand_idle (bs : List Byte) (op : Byte) (h : dispatchIn .executingCommand s = false) :
    exec (.subframe bs) s = .next s ∧ exec (.wsCall op) s = .next s := by
  simp [exec, execSubframe, execWsCall, h]

/-- Settles O41: each clause denies its phase's row condition. -/
theorem tokensActOnlyInTheirPhase : Obligations.TokensActOnlyInTheirPhase := by
  intro s b o k op bs
  refine ⟨fun h => exec_awaitingInit_idle b ?_, fun h => exec_awaitingCommand_idle o k ?_,
    fun h => exec_executingCommand_idle bs op ?_⟩ <;> rw [Bool.eq_false_iff, ne_eq]
  · rw [dispatchIn_awaitingInit_iff]
    rintro ⟨hpc, hi⟩
    simp [hpc, hi] at h
  · rw [dispatchIn_awaitingCommand_iff]
    rintro ⟨hpc, hi, hc⟩
    simp [hpc, hi, hc] at h
  · rw [dispatchIn_executingCommand_iff]
    rintro ⟨hpc, hi, hc⟩
    rcases h with h | h | h
    · exact h hpc
    · simp [hi] at h
    · simp [h] at hc

/-- Settles O42: TX_ACK, TX_NACK and TX_DATA share send-byte. -/
theorem eachSentByteIsOneEvent : Obligations.EachSentByteIsOneEvent := fun _ _ => ⟨rfl, rfl, rfl⟩

/-! DISPATCH. -/

/-- With a command active DISPATCH calls its work step, whatever is staged (R103). -/
theorem exec_dispatch_called {op : Byte} (hpc : s.pc = .dispatch) (hp : phase s = .executingCommand)
    (hop : s.selectedCommand = some op) : exec .dispatch s = (callWorkStep op s).settle := by
  rw [exec_dispatch_eq_wsCall hpc hp hop, exec_wsCall_called hpc (fields_of_executingCommand hp).1 hop]

/-- Settles O58: the call of the work step reads no staged byte. -/
theorem subframesAreOpaqueToTheEngine : Obligations.SubframesAreOpaqueToTheEngine := by
  intro s t m hpc hp h
  obtain ⟨op, hop⟩ := Option.isSome_iff_exists.mp (fields_of_executingCommand hp).2
  rw [exec_dispatch_called hpc hp hop] at h
  obtain rfl : ((s.emit (.workStep op)).setWsResult none).setPc .cmdWait = t := Host.Outcome.next.inj h
  exact exec_dispatch_called (s := { s with staging := m }) hpc hp hop

theorem exec_dispatch_answers (hpc : s.pc = .dispatch) : ∃ t, exec .dispatch s = .next t := by
  simp only [exec, execDispatch, if_pos hpc]
  cases dispatchHandler s <;> exact ⟨_, rfl⟩

/-- Settles O32: of the cases of `exec_dispatch_cases` the invariant excludes those that fault. -/
theorem dispatchCompletes : Obligations.DispatchCompletes := by
  intro s hs hpc
  obtain ⟨t, h⟩ := exec_dispatch_answers hpc
  have hl : live s = true := live_of_pc hpc rfl
  refine ⟨t, h, ?_⟩
  rcases exec_dispatch_cases hpc h with ⟨-, -, -, rfl⟩ | ⟨-, -, hf, -⟩ | ⟨-, rfl⟩ | ⟨-, -, rfl⟩ | ⟨-, hf, -⟩ |
    ⟨-, rfl⟩ | ⟨-, rfl⟩ | ⟨-, rfl⟩ | ⟨-, o, d, -, -, rfl⟩ | ⟨-, o, d, hd, hf, -⟩ | ⟨-, op, -, rfl⟩ |
    ⟨hp, r, hb, -⟩ | ⟨hp, r, hb, -⟩
  · exact ⟨rfl, .inl rfl, rfl, rfl⟩
  · exact absurd (hs.fmax_ge hl) (Nat.not_le.mpr hf)
  · exact ⟨rfl, .inr (.inl rfl), rfl, rfl⟩
  · exact ⟨rfl, .inl rfl, rfl, rfl⟩
  · exact absurd (Nat.le_of_succ_le (hs.fmax_ge hl)) (Nat.not_le.mpr hf)
  · exact ⟨rfl, .inr (.inl rfl), rfl, rfl⟩
  · exact ⟨rfl, .inr (.inl rfl), rfl, rfl⟩
  · exact ⟨rfl, .inr (.inl rfl), rfl, rfl⟩
  · exact ⟨rfl, .inl rfl, rfl, rfl⟩
  · exact absurd (hs.extraFrame_fits hl hd) (Nat.not_le.mpr hf)
  · exact ⟨rfl, .inr (.inr rfl), rfl, rfl⟩
  · exact absurd hb (hs.stagingRead_ne_error_awaitingInit hpc hp)
  · exact absurd hb (hs.stagingRead_ne_error_awaitingCommand hpc hp)

end Sys2Proof.Machine
end

section
/-!
Proofs about START, ENTRY and CFG_CHECK (70_reset_and_hazards.md) and the state before the first start (10_state.md
section 8).
-/

namespace Sys2Proof.Machine

variable {s : State} {p : Params} {caps : Caps} {timeout : Nat}

/-! START. -/

/-- Settles O43: from IDLE and STOPPED the sentinels alone decide. -/
theorem startHoldsTheInputs : Obligations.StartHoldsTheInputs := by
  intro caps timeout chipId s hpc
  have hstart : startable s = true := by simpa [startable] using hpc
  refine ⟨fun hne => ?_, fun heq => ?_⟩
  · have hok : s.cfg.sentinelsClash = false := by simpa [Params.sentinelsClash] using hne
    simp only [exec, execStart, hstart, hok, if_true, Bool.false_eq_true, if_false]
    rfl
  · have hclash : s.cfg.sentinelsClash = true := by simpa [Params.sentinelsClash] using heq
    simp only [exec, execStart, hstart, hclash, if_true]

/-! ENTRY. -/

/-- ENTRY after a passed check never faults: the check covers its request (R127). -/
theorem exec_entry_passed (hpc : s.pc = .entry) (hc : s.cfg.cfgCheck s.inputs.caps s.inputs.timeout = none) :
    exec .entry s = .next (freshSession s) := by
  have hone : 1 ≤ s.cfg.fmax := Nat.le_of_succ_le (frames_fit_of_cfgCheck hc).1
  have hinit : entryInit (entryClear s) = .ok (freshSession s) := by
    rw [← entry_writes_eq]
    simp [entryInit, request, resetRing, entryClear, Nat.not_lt.mpr hone]
  simp only [exec, execEntry, if_pos hpc, hc, hinit, Ran.settle_ok]

/-- Settles O44: `freshSession` is the state the statement writes out. -/
theorem entryStartsAFreshSession : Obligations.EntryStartsAFreshSession :=
  fun _ hpc hc => exec_entry_passed hpc hc

/-- Settles O45: `raise End` after ENTRY's first writes. -/
theorem entryRaisesTheConfigurationError : Obligations.EntryRaisesTheConfigurationError := by
  intro c s hpc hc
  simp only [exec, execEntry, if_pos hpc, hc]
  simp [raiseEnd, entryClear, State.clearHist, State.setFault, State.setArmed, State.setEndCause, State.setResult,
    State.setWsResult, State.setPc]

/-! CFG_CHECK. -/

/-- A required capability is absent (R118, R127). -/
def CapsMissing (p : Params) (caps : Caps) (timeout : Nat) : Prop :=
  caps.tx = false ∨ caps.irqGate = false ∨ caps.wdg = false ∨ caps.flash = false ∨
    (timeout ≠ 0 ∧ caps.timer = false) ∨ (p.logEnabled = true ∧ caps.log = false)

theorem cfgCheck_of_capsMissing (h : CapsMissing p caps timeout) : p.cfgCheck caps timeout = some .configCaps := by
  unfold Params.cfgCheck
  by_cases hbase : (caps.tx && caps.irqGate && caps.wdg && caps.flash) = true
  · obtain ⟨⟨⟨htx, hirq⟩, hwdg⟩, hflash⟩ := by simpa only [Bool.and_eq_true] using hbase
    rcases h with h | h | h | h | ⟨ht, h⟩ | ⟨hl, h⟩
    · simp [htx] at h
    · simp [hirq] at h
    · simp [hwdg] at h
    · simp [hflash] at h
    · simp [hbase, ht, h]
    · simp [hbase, hl, h]
  · simp [hbase]

/-- A descriptor asks for a frame larger than `FMAX` (R127). -/
theorem descriptors_any_iff :
    p.descriptors.any (fun d => p.fmax < d.extraFrameBytes) = true ↔
      ∃ o d, p.lookup o = some d ∧ p.fmax < d.extraFrameBytes := by
  simp only [List.any_eq_true, Params.descriptors, List.mem_filter, beq_iff_eq, decide_eq_true_eq]
  constructor
  · rintro ⟨d, ⟨-, hl⟩, hd⟩
    exact ⟨d.opcode, d, hl, hd⟩
  · rintro ⟨o, d, hl, hd⟩
    have ho : d.opcode = o := by simpa using List.find?_some hl
    exact ⟨d, ⟨List.mem_of_find?_eq_some hl, ho ▸ hl⟩, hd⟩

/-- With the capabilities present the frame bounds decide (R127). -/
theorem cfgCheck_of_capsPresent (h : ¬ CapsMissing p caps timeout) :
    p.cfgCheck caps timeout =
      if p.fmax < genericFrame ∨ ∃ o d, p.lookup o = some d ∧ p.fmax < d.extraFrameBytes then some .configBound
      else none := by
  simp only [CapsMissing, not_or, not_and, Bool.not_eq_false] at h
  obtain ⟨htx, hirq, hwdg, hflash, htimer, hlog⟩ := h
  have htimer' : (decide (timeout ≠ 0) && !caps.timer) = false := by simpa using htimer
  have hlog' : (p.logEnabled && !caps.log) = false := by simpa using hlog
  have hbase : (caps.tx && caps.irqGate && caps.wdg && caps.flash) = true := by simp [htx, hirq, hwdg, hflash]
  simp only [← descriptors_any_iff, Params.cfgCheck, hbase, htimer', hlog', Bool.not_true, Bool.false_eq_true, if_false]
  by_cases hgeneric : p.fmax < genericFrame
  · simp only [hgeneric, true_or, if_true]
  · simp only [hgeneric, false_or, if_false]

/-- Settles O46: the capabilities are tested before the bounds. -/
theorem cfgCheckTestsCapabilitiesFirst : Obligations.CfgCheckTestsCapabilitiesFirst := by
  intro caps timeout s
  refine ⟨rfl, cfgCheck_of_capsMissing, fun htx hirq hwdg hflash htimer hlog => ?_⟩
  have hpresent : ¬ CapsMissing s.cfg caps timeout := by
    simpa [CapsMissing, htx, hirq, hwdg, hflash] using ⟨htimer, hlog⟩
  rw [cfgCheck_of_capsPresent hpresent]
  refine ⟨fun h => if_pos h, fun hgeneric hfit => if_neg ?_⟩
  rintro (h | ⟨o, d, hl, hd⟩)
  · exact absurd hgeneric (Nat.not_le.mpr h)
  · exact absurd (hfit o d hl) (Nat.not_le.mpr hd)

/-! The state before the first start. -/

/-- Settles O48: outside a session, with an empty ring and empty memories, the invariants ask for nothing. -/
theorem resetMeetsTheInvariants : Obligations.ResetMeetsTheInvariants := fun _ =>
  ⟨rfl, rfl, rfl, ⟨rfl, rfl, rfl, rfl⟩, Ring.Ok.empty,
    sessionOk_of_not_live rfl rfl rfl (fun h => nomatch h) (fun h => nomatch h)⟩

end Sys2Proof.Machine
end
